-- ==== Sys2Proof/Word.lean ====
section
/-!
DEFINITION. The words of the Universal Machine: 00_scope.md R6 and R9, 10_state.md R20.
-/

namespace Sys2Proof

/-- A Word: an unsigned 32-bit unit of storage, instruction or data alike (R9, R12). -/
abbrev Word := BitVec 32

/-- One byte of the byte channel or of the program image (R163, R164, R181). -/
abbrev Byte := BitVec 8

/-- The index of one of the eight registers: a 3-bit field names one of x[0] to x[7], so that no
index is out of range (R20, R21). -/
abbrev RegIdx := Fin 8

end Sys2Proof
end

