-- ==== Sys2Proof/Config.lean ====
section
/-!
DEFINITION. What is fixed for the machine (00_scope.md R6, R7) and the one number the spec leaves
open outside the block. The OPEN parameter `capacity_words` (92_eei_decisions.md D8) is an argument
of the model and therefore the field `capacityWords` of `Machine.State` (log entry 2).
-/

namespace Sys2Proof

/-- The longest segment and the longest program image, in words: 2^32 - 1 (20_memory.md R40, D6). -/
def Config.maxSegmentWords : Nat := 4294967295

/-- One past the largest segment id: the ids are 0 to 2^32 - 1 (00_scope.md R7, D7). -/
def Config.idLimit : Nat := 4294967296

/-- The OPEN parameter `fault_exit_status` of the host, less one: MSA says only that the host exits
non-zero after a fault (D12), so the status is this number plus one, and nothing constrains the
number. No rule of the block depends on it (log entry 14). -/
opaque Config.faultExitStatusLessOne : Nat

end Sys2Proof
end

