-- ==== Sys2Proof/Syntax.lean ====
section
/-!
DEFINITION. The instruction set: one constructor per row of spec/opcode_table.json, carrying the
operand fields that row uses (30_encoding.md R75). Register fields an instruction does not use are
decoded and then ignored (R78), so they are not part of it.
-/

namespace Sys2Proof

/-- The fourteen instructions (R75), in the order of their opcodes. -/
inductive Instr where
  /-- Opcode 0, ConditionalMove: `cmov rA, rB, rC` (R100). -/
  | cmov (a b c : RegIdx)
  /-- Opcode 1, SegmentedLoad: `sload rA, rB, rC` (R101). -/
  | sload (a b c : RegIdx)
  /-- Opcode 2, SegmentedStore: `sstore rA, rB, rC` (R102). -/
  | sstore (a b c : RegIdx)
  /-- Opcode 3, Add: `add rA, rB, rC` (R111). -/
  | add (a b c : RegIdx)
  /-- Opcode 4, Multiply: `mul rA, rB, rC` (R112). -/
  | mul (a b c : RegIdx)
  /-- Opcode 5, Divide: `div rA, rB, rC` (R113). -/
  | div (a b c : RegIdx)
  /-- Opcode 6, BitwiseNand: `nand rA, rB, rC` (R114). -/
  | nand (a b c : RegIdx)
  /-- Opcode 7, Halt: `halt` (R120). -/
  | halt
  /-- Opcode 8, MapSegment: `map rB, rC` (R121). -/
  | map (b c : RegIdx)
  /-- Opcode 9, UnmapSegment: `unmap rC` (R122). -/
  | unmap (c : RegIdx)
  /-- Opcode 10, Output: `out rC` (R130). -/
  | out (c : RegIdx)
  /-- Opcode 11, Input: `in rC` (R131); the constructor's name avoids Lean's keyword. -/
  | inp (c : RegIdx)
  /-- Opcode 12, LoadProgram: `loadp rB, rC` (R140). -/
  | loadp (b c : RegIdx)
  /-- Opcode 13, LoadImmediate: `loadi rA, imm` (R141); `imm` is a number as an assembler is given
  it, and `WellFormed` is the check that it fits the 25-bit field (R80). -/
  | loadi (a : RegIdx) (imm : Nat)
deriving DecidableEq, Repr

end Sys2Proof
end

