-- ==== Sys2Proof/Machine/State.lean ====
section
/-!
DEFINITION. The state of the machine as plain data (10_state.md R20-R37), the state after reset
(70_reset_and_hazards.md R180), and the reasons a step can have no successor.
-/

namespace Sys2Proof.Machine

/-! ## Segments -/

/-- A segment (20_memory.md R40): its length in words, and the words that are not 0, each at its
offset. A word below the length that is not listed is 0, which is what a segment is created with
(R40, R43). `Segment.wf` is the canonical form (log entry 1). -/
structure Segment where
  /-- The length in words. -/
  len : Nat
  /-- The words that are not 0, by rising offset. -/
  cells : List (Nat × Word)
deriving DecidableEq, Repr

/-- The segment table's contents, `seg` of R31: the live ids with their segments, by rising id. An
id that is not listed is not live (R42). `Memory.wf` is the canonical form. -/
abbrev Memory := List (Nat × Segment)

/-! ## The terminator's state -/

/-- `run_state` (R28). -/
inductive RunState where
  /-- The initial state: a step is possible. -/
  | running
  /-- Ended by a Halt instruction; terminal. -/
  | halted
  /-- Ended by a fault; terminal. -/
  | faulted
deriving DecidableEq, Repr

/-- The four kinds of fault (60_exceptions.md R150). -/
inductive FaultKind where
  /-- Code 1: the divisor is 0. -/
  | divideByZero
  /-- Code 2: an id that is not live, an offset past the end, or an unmap of segment 0. -/
  | invalidAccess
  /-- Code 3: an Output of a value above 255. -/
  | invalidOutput
  /-- Code 4: opcode 14 or 15, or a fetch at or past the end of segment 0. -/
  | invalidInstruction
deriving DecidableEq, Repr

/-- The fault record (R29): the kind, and the pc of the faulting step. -/
structure FaultRecord where
  /-- Which of the four faults. -/
  kind : FaultKind
  /-- The index of the faulting instruction, or the pc that could not be fetched (R152). -/
  pc : Word
deriving DecidableEq, Repr

/-- What the refusal mark of R37 can say (R167). -/
inductive RefusalMark where
  /-- The free list is empty and no fresh id fits a register (20_memory.md R51). -/
  | idSpaceExhausted
  /-- The store of a physical implementation is full (20_memory.md R52). -/
  | capacityExhausted
deriving DecidableEq, Repr

/-! ## The state -/

/-- R20-R37: the block's state, then the three items of the surroundings that a model carries, then
the parameter `capacity_words`. -/
structure State where
  /-- The register file, eight Words (R20). -/
  x : Vector Word 8
  /-- The program counter, an index into segment 0 (R25). -/
  pc : Word
  /-- The segments by id (R31). -/
  seg : Memory
  /-- One past the largest id ever minted (R31, R41). -/
  nextId : Nat
  /-- The freed ids, most recently freed first (R31, R35). -/
  free : List Word
  /-- The engine's state (R28). -/
  runState : RunState
  /-- The fault record (R29). -/
  fault : Option FaultRecord
  /-- The bytes emitted so far, oldest first (R37, R163). -/
  out : List Byte
  /-- The input bytes not yet consumed, next one first (R37, R164). -/
  inp : List Byte
  /-- The refusal mark (R37, R167). -/
  refused : Option RefusalMark
  /-- The parameter `capacity_words` (R52, D8): the store's size in words, or none for the unbounded
  store of R7. Set at launch; no step writes it (log entry 2). -/
  capacityWords : Option Nat
deriving DecidableEq, Repr

/-- R180, with the program image of 0 bytes (legal by R182) and no input: log entry 3 says how a
program comes to run. -/
def State.reset : State where
  x := Vector.replicate 8 0#32
  pc := 0#32
  seg := [(0, ⟨0, []⟩)]
  nextId := 1
  free := []
  runState := .running
  fault := none
  out := []
  inp := []
  refused := none
  capacityWords := none

/-! ## Why a step has no successor -/

/-- The reasons `step` answers `fault`: "No step exists from Halted or Faulted" (R95). A fault of the
machine's own program is not among them: the step that raises one answers the Faulted state (R152). -/
inductive Fault where
  /-- Raised by `stopped`, hence by `step`, in the Halted state; safe: the spec has no step there. -/
  | alreadyHalted
  /-- Raised by `stopped`, hence by `step`, in the Faulted state; safe: the spec has no step there. -/
  | alreadyFaulted
deriving DecidableEq, Repr

/-- The reasons `step` answers `refused`. -/
inductive Refusal where
  /-- For an arm of `exec` without a meaning; none is left, so nothing raises it; safe. -/
  | notModelled (mnemonic : String)
  /-- Raised by `stopped`, hence by `step`, after a map refused for want of an id (R51, R167); safe:
  the model claims nothing of such a run. -/
  | idSpaceExhausted
  /-- Raised by `stopped`, hence by `step`, after a map refused for want of storage (R52, R167); safe:
  the model claims nothing of such a run. -/
  | capacityExhausted
deriving DecidableEq, Repr

end Sys2Proof.Machine
end

