-- ==== Sys2Proof/Machine/Flags.lean ====
section
/-!
DEFINITION. The machine has no flags (10_state.md R24): its only conditional operations "test register
values directly". These are those four tests.
-/

namespace Sys2Proof.Machine

/-- ConditionalMove's condition: any non-zero Word (R100). -/
def moves (v : Word) : Bool := decide (v ≠ 0#32)

/-- Divide's check (R113). -/
def isZeroDivisor (v : Word) : Bool := decide (v = 0#32)

/-- Output's range check: the value is no byte (R130). -/
def exceedsByte (v : Word) : Bool := decide (255 < v.toNat)

/-- LoadProgram's test: the register names a segment to load, not segment 0 (R140). -/
def replacesProgram (v : Word) : Bool := decide (v ≠ 0#32)

end Sys2Proof.Machine
end

