-- ==== Sys2Proof/Machine/Operands.lean ====
section
/-!
DEFINITION. The operand forms (30_encoding.md R76): a register's Word, and LoadImmediate's number.
Also the value an input answer gives a register (44_io.md R131).
-/

namespace Sys2Proof.Machine

/-- `x[i]` (R21). -/
def State.reg (s : State) (i : RegIdx) : Word := s.x[i.val]

/-- `x[i] <- v` (R21): no register is hardwired (R20). -/
def State.setReg (s : State) (i : RegIdx) (v : Word) : State := { s with x := s.x.set i.val v }

/-- The immediate: 25 bits, zero-extended, neither scaled nor shifted (R76). -/
def immWord (imm : Nat) : Word := (BitVec.ofNat 25 imm).setWidth 32

/-- A byte as a Word, zero-extended (R131, D13: log entry 15). -/
def byteWord (b : Byte) : Word := b.setWidth 32

/-- What an Input writes at end of stream (R131). -/
def endOfStreamWord : Word := 0xFFFFFFFF#32

end Sys2Proof.Machine
end

