-- ==== Sys2Proof/Machine/Table.lean ====
section
/-!
DEFINITION. Lists of keys and values by rising key: how the words of a segment and the segments of
the table are held (log entry 1), and the canonical form of both.
-/

namespace Sys2Proof.Machine

/-- The value listed under a key. -/
def tableFind {α : Type} (k : Nat) : List (Nat × α) → Option α
  | [] => none
  | (j, v) :: rest => if k = j then some v else tableFind k rest

/-- The list with a value under a key: put in its place by rising key, or in place of the key's old
value. -/
def tableInsert {α : Type} (k : Nat) (v : α) : List (Nat × α) → List (Nat × α)
  | [] => [(k, v)]
  | (j, u) :: rest =>
    if k < j then (k, v) :: (j, u) :: rest
    else if k = j then (k, v) :: rest
    else (j, u) :: tableInsert k v rest

/-- The list without a key. -/
def tableErase {α : Type} (k : Nat) : List (Nat × α) → List (Nat × α)
  | [] => []
  | (j, u) :: rest => if k = j then tableErase k rest else (j, u) :: tableErase k rest

/-- Keys strictly rising. -/
abbrev TableSorted {α : Type} (t : List (Nat × α)) : Prop := t.Pairwise fun e f => e.1 < f.1

/-! ## Segments as lists of words -/

/-- A segment of `n` zero words (R43). -/
def zeroSegment (n : Nat) : Segment := ⟨n, []⟩

/-- Word `off` of a segment, for an offset below its length (R45). -/
def segmentGet (g : Segment) (off : Nat) : Word := (tableFind off g.cells).getD 0#32

/-- The segment with word `off` replaced; the length stays (R46). Writing 0 removes the entry. -/
def segmentPut (g : Segment) (off : Nat) (v : Word) : Segment :=
  { g with cells := if v = 0#32 then tableErase off g.cells else tableInsert off v g.cells }

/-- The words of a segment in order: the `List Word` that R31 calls the segment. -/
def segmentWords (g : Segment) : List Word := (List.range g.len).map (segmentGet g)

/-- The entries of a list of words whose first has offset `k`. -/
def cellsFrom (k : Nat) : List Word → List (Nat × Word)
  | [] => []
  | w :: ws => if w = 0#32 then cellsFrom (k + 1) ws else (k, w) :: cellsFrom (k + 1) ws

/-- The segment that holds a list of words. -/
def segmentOfWords (ws : List Word) : Segment := ⟨ws.length, cellsFrom 0 ws⟩

/-! ## The canonical form -/

/-- A segment's entries: offsets strictly rising and below the length, no entry 0. -/
abbrev Segment.wf (g : Segment) : Prop :=
  TableSorted g.cells ∧ ∀ e ∈ g.cells, e.1 < g.len ∧ e.2 ≠ 0#32

/-- The table's entries: ids strictly rising, every id a Word (R7), every segment in canonical form. -/
abbrev Memory.wf (m : Memory) : Prop :=
  TableSorted m ∧ ∀ e ∈ m, e.1 < Config.idLimit ∧ e.2.wf

end Sys2Proof.Machine
end

