-- ==== Sys2Proof/Machine/Ops.lean ====
section
/-!
DEFINITION. The shared operations of the machine: the pc, the terminator (the fault that ends a run
and the halt; there is no return from a fault, 60_exceptions.md R154), the refusal mark, the five
segment-table operations (20_memory.md R43-R47) and the two ports (R163, R164).
-/

namespace Sys2Proof.Machine

/-! ## The program counter -/

/-- R93: `pc <- pc + 1`. -/
def State.advance (s : State) : State := { s with pc := s.pc + 1#32 }

/-- R140: `pc <- target`. -/
def State.jump (s : State) (target : Word) : State := { s with pc := target }

/-! ## The terminator -/

/-- R152: `raise K(pc)`. The run ends in Faulted with the kind and the pc recorded, and nothing else
changes. -/
def State.raise (s : State) (k : FaultKind) : State :=
  { s with runState := .faulted, fault := some ⟨k, s.pc⟩ }

/-- R120: `halt`. -/
def State.halt (s : State) : State := { s with runState := .halted }

/-- R10, R167: `refuse R`. The mark is set, and nothing else changes. -/
def State.refuse (s : State) (r : RefusalMark) : State := { s with refused := some r }

/-! ## The segment table -/

/-- `seg[id]` (R31). -/
def State.segment (s : State) (id : Word) : Option Segment := tableFind id.toNat s.seg

/-- R42: the id is live. -/
def State.live (s : State) (id : Word) : Bool := (s.segment id).isSome

/-- `seg[id]` as the list of words R31 speaks of. -/
def State.segWords (s : State) (id : Word) : Option (List Word) := (s.segment id).map segmentWords

/-- `seg[id] <- Some(g)`. -/
def State.setSegment (s : State) (id : Word) (g : Segment) : State :=
  { s with seg := tableInsert id.toNat g s.seg }

/-- `seg[id] <- None`. -/
def State.dropSegment (s : State) (id : Word) : State := { s with seg := tableErase id.toNat s.seg }

/-- `free <- ids`. -/
def State.setFree (s : State) (ids : List Word) : State := { s with free := ids }

/-- `next_id <- n`. -/
def State.setNextId (s : State) (n : Nat) : State := { s with nextId := n }

/-- The words of all live segments together (R52). -/
def State.liveWords (s : State) : Nat := (s.seg.map fun e => e.2.len).sum

/-- R52: the store still holds `n` more words; always so without `capacity_words`. -/
def State.fits (s : State) (n : Word) : Bool :=
  match s.capacityWords with
  | none => true
  | some cap => decide (s.liveWords + n.toNat ≤ cap)

/-- R43, the id a new segment gets, with the free list and `next_id` updated: the most recently freed
id, else `next_id`, else none (R51). -/
def takeId (s : State) : Option (Word × State) :=
  match s.free with
  | id :: rest => some (id, s.setFree rest)
  | [] =>
    if s.nextId < Config.idLimit then some (BitVec.ofNat 32 s.nextId, s.setNextId (s.nextId + 1))
    else none

/-- R43: `SegMap(n)`. -/
def segMap (n : Word) (s : State) : Except RefusalMark (Word × State) :=
  match takeId s with
  | none => .error .idSpaceExhausted
  | some (id, t) =>
    if s.fits n then .ok (id, t.setSegment id (zeroSegment n.toNat))
    else .error .capacityExhausted

/-- R44: `SegUnmap(id)`. -/
def segUnmap (id : Word) (s : State) : Except FaultKind State :=
  if id = 0#32 ∨ s.live id = false then .error .invalidAccess
  else .ok ((s.dropSegment id).setFree (id :: s.free))

/-- R45: `MemRead((id, off), 1)`. -/
def memRead (id off : Word) (s : State) : Except FaultKind Word :=
  match s.segment id with
  | none => .error .invalidAccess
  | some g => if off.toNat < g.len then .ok (segmentGet g off.toNat) else .error .invalidAccess

/-- R46: `MemWrite((id, off), 1, v)`. -/
def memWrite (id off v : Word) (s : State) : Except FaultKind State :=
  match s.segment id with
  | none => .error .invalidAccess
  | some g =>
    if off.toNat < g.len then .ok (s.setSegment id (segmentPut g off.toNat v))
    else .error .invalidAccess

/-- R47: `SegReplaceProgram(id)`. Segments are values, so that segment 0 gets a copy (R48). -/
def segReplaceProgram (id : Word) (s : State) : Except FaultKind State :=
  match s.segment id with
  | none => .error .invalidAccess
  | some g => if id = 0#32 then .ok s else .ok (s.setSegment 0#32 g)

/-! ## The ports -/

/-- R163: `emit(b)`; the channel takes the byte at once (D23: log entry 6). -/
def State.emit (s : State) (b : Byte) : State := { s with out := s.out ++ [b] }

/-- The input bytes not yet consumed, replaced. -/
def State.setInp (s : State) (bytes : List Byte) : State := { s with inp := bytes }

/-- R164: what `receive()` returns. -/
inductive Answer where
  /-- A byte, `in_data`. -/
  | byte (b : Byte)
  /-- End of stream, `in_eof`. -/
  | eof
deriving DecidableEq, Repr

/-- R164: `receive()`, the head of the input, or end of stream when there is none (D14: log entry 6). -/
def receive (s : State) : Answer × State :=
  match s.inp with
  | [] => (.eof, s)
  | b :: rest => (.byte b, s.setInp rest)

/-- R131: the Word an answer gives the destination register. -/
def answerWord : Answer → Word
  | .byte b => byteWord b
  | .eof => endOfStreamWord

/-! ## How a meaning ends -/

/-- The step goes on with the state an operation gives, or raises the fault it names (R94, R152). -/
def orRaise (s : State) (r : Except FaultKind State) : Host.Outcome State Fault Refusal :=
  match r with
  | .ok t => .next t
  | .error k => .next (s.raise k)

/-- The step goes on with the state an operation gives, or is refused (R167). -/
def orRefuse (s : State) (r : Except RefusalMark State) : Host.Outcome State Fault Refusal :=
  match r with
  | .ok t => .next t
  | .error m => .next (s.refuse m)

end Sys2Proof.Machine
end

