-- ==== Sys2Proof/Machine/Arithmetic.lean ====
section
/-!
DEFINITION. Arithmetic and logic (42_arithmetic.md), unsigned and modulo 2^32 (R110).
-/

namespace Sys2Proof.Machine

/-- R111: `(v + w) mod 2^32`. -/
def wordAdd (v w : Word) : Word := BitVec.ofNat 32 (v.toNat + w.toNat)

/-- R112: the low 32 bits of the exact product. -/
def wordMul (v w : Word) : Word := BitVec.ofNat 32 (v.toNat * w.toNat)

/-- R113: `floor(v / w)`, unsigned; asked only of a divisor that is not 0. -/
def wordDiv (v w : Word) : Word := BitVec.ofNat 32 (v.toNat / w.toNat)

/-- R114: the complement of the bitwise and. -/
def wordNand (v w : Word) : Word := ~~~(v &&& w)

/-- R111. -/
def execAdd (a b c : RegIdx) (s : State) : Host.Outcome State Fault Refusal :=
  .next ((s.setReg a (wordAdd (s.reg b) (s.reg c))).advance)

/-- R112. -/
def execMul (a b c : RegIdx) (s : State) : Host.Outcome State Fault Refusal :=
  .next ((s.setReg a (wordMul (s.reg b) (s.reg c))).advance)

/-- R113: DivideByZero when the divisor is 0, before any write. -/
def execDiv (a b c : RegIdx) (s : State) : Host.Outcome State Fault Refusal :=
  if isZeroDivisor (s.reg c) then .next (s.raise .divideByZero)
  else .next ((s.setReg a (wordDiv (s.reg b) (s.reg c))).advance)

/-- R114. -/
def execNand (a b c : RegIdx) (s : State) : Host.Outcome State Fault Refusal :=
  .next ((s.setReg a (wordNand (s.reg b) (s.reg c))).advance)

end Sys2Proof.Machine
end

