-- ==== Sys2Proof/Machine/HaltSegments.lean ====
section
/-!
DEFINITION. Halt, map segment and unmap segment (43_halt_segments.md).
-/

namespace Sys2Proof.Machine

/-- R120: the run ends; the pc keeps the index of the Halt (R93). -/
def execHalt (s : State) : Host.Outcome State Fault Refusal := .next s.halt

/-- R121: `x[b] <- SegMap(x[c])`, refused on exhaustion (R51, R52). -/
def execMap (b c : RegIdx) (s : State) : Host.Outcome State Fault Refusal :=
  orRefuse s ((segMap (s.reg c) s).map fun r => (r.2.setReg b r.1).advance)

/-- R122: `SegUnmap(x[c])`, or InvalidAccess. -/
def execUnmap (c : RegIdx) (s : State) : Host.Outcome State Fault Refusal :=
  orRaise s ((segUnmap (s.reg c) s).map State.advance)

end Sys2Proof.Machine
end

