-- ==== Sys2Proof/Machine/InOut.lean ====
section
/-!
DEFINITION. Output and input (44_io.md).
-/

namespace Sys2Proof.Machine

/-- R130: InvalidOutput above 255, before anything is emitted; else one byte. -/
def execOut (c : RegIdx) (s : State) : Host.Outcome State Fault Refusal :=
  if exceedsByte (s.reg c) then .next (s.raise .invalidOutput)
  else .next ((s.emit ((s.reg c).setWidth 8)).advance)

/-- R131: one byte of the input, zero-extended, or 0xFFFFFFFF at end of stream. -/
def execInp (c : RegIdx) (s : State) : Host.Outcome State Fault Refusal :=
  .next (((receive s).2.setReg c (answerWord (receive s).1)).advance)

end Sys2Proof.Machine
end

