-- ==== Sys2Proof/Machine/MoveMemory.lean ====
section
/-!
DEFINITION. Conditional move, segmented load and store (41_move_memory.md). In every meaning of the
model the operand registers are read from the state before the step (D24: log entry 16).
-/

namespace Sys2Proof.Machine

/-- R100: `if x[c] != 0 then x[a] <- x[b]`. -/
def execCmov (a b c : RegIdx) (s : State) : Host.Outcome State Fault Refusal :=
  .next ((if moves (s.reg c) then s.setReg a (s.reg b) else s).advance)

/-- R101: `x[a] <- MemRead((x[b], x[c]), 1)`, or InvalidAccess. -/
def execSload (a b c : RegIdx) (s : State) : Host.Outcome State Fault Refusal :=
  orRaise s ((memRead (s.reg b) (s.reg c) s).map fun v => (s.setReg a v).advance)

/-- R102: `MemWrite((x[a], x[b]), 1, x[c])`, or InvalidAccess. -/
def execSstore (a b c : RegIdx) (s : State) : Host.Outcome State Fault Refusal :=
  orRaise s ((memWrite (s.reg a) (s.reg b) (s.reg c) s).map State.advance)

end Sys2Proof.Machine
end

