-- ==== Sys2Proof/Machine/ProgramImmediate.lean ====
section
/-!
DEFINITION. Load program and load immediate (45_program_immediate.md).
-/

namespace Sys2Proof.Machine

/-- R140: replace segment 0 when `x[b] != 0`, or raise InvalidAccess; then `pc <- x[c]`. -/
def execLoadp (b c : RegIdx) (s : State) : Host.Outcome State Fault Refusal :=
  if replacesProgram (s.reg b) then
    orRaise s ((segReplaceProgram (s.reg b) s).map fun t => t.jump (s.reg c))
  else .next (s.jump (s.reg c))

/-- R141: `x[a] <- zext_32(imm)`. -/
def execLoadi (a : RegIdx) (imm : Nat) (s : State) : Host.Outcome State Fault Refusal :=
  .next ((s.setReg a (immWord imm)).advance)

end Sys2Proof.Machine
end

