-- ==== Sys2Proof/WellFormed.lean ====
section
/-!
DEFINITION. When an instruction can be encoded. Register operands are in range by their type
(30_encoding.md R72: "decoding never fails on operand range"); the one check left is R80's: "An
assembler refuses a LoadImmediate whose value does not fit 25 unsigned bits".
-/

namespace Sys2Proof

/-- The instruction fits its encoding (R73, R80). -/
def WellFormed : Instr → Bool
  | .cmov _ _ _ => true
  | .sload _ _ _ => true
  | .sstore _ _ _ => true
  | .add _ _ _ => true
  | .mul _ _ _ => true
  | .div _ _ _ => true
  | .nand _ _ _ => true
  | .halt => true
  | .map _ _ => true
  | .unmap _ => true
  | .out _ => true
  | .inp _ => true
  | .loadp _ _ => true
  | .loadi _ imm => decide (imm < 2 ^ 25)

end Sys2Proof
end

