-- ==== Sys2Proof/Decode.lean ====
section
/-!
DEFINITION. The decoder (30_encoding.md R70-R79), total on every Word, and after it the encoder
(R80) and the spec's own assembly spelling (R82). Bit 0 is the least significant bit (00_scope.md
R8, D1: log entry 7).
-/

namespace Sys2Proof

/-! ## The fields of an instruction word -/

/-- Bits 31:28, in both formats (R71). -/
def opField (w : Word) : BitVec 4 := w.extractLsb' 28 4

/-- Bits 8:6 of the three-register format (R72). -/
def aField (w : Word) : RegIdx := (w.extractLsb' 6 3).toFin

/-- Bits 5:3 of the three-register format (R72). -/
def bField (w : Word) : RegIdx := (w.extractLsb' 3 3).toFin

/-- Bits 2:0 of the three-register format (R72). -/
def cField (w : Word) : RegIdx := (w.extractLsb' 0 3).toFin

/-- Bits 27:25 of the load-immediate format (R73). -/
def aImmField (w : Word) : RegIdx := (w.extractLsb' 25 3).toFin

/-- Bits 24:0 of the load-immediate format (R73). -/
def immField (w : Word) : BitVec 25 := w.extractLsb' 0 25

/-! ## The decoder -/

/-- The decoder's output, one variant per operand shape and one for the two undefined opcodes
(R74; that `invalid` carries the three-register fields is D4, log entry 21). -/
inductive Decoded where
  /-- The three-register format, opcodes 0 to 12. -/
  | threeReg (op : BitVec 4) (a b c : RegIdx)
  /-- The load-immediate format, opcode 13. -/
  | loadImm (a : RegIdx) (imm : BitVec 25)
  /-- The undefined opcodes 14 and 15: decoded, and rejected by dispatch (R79). -/
  | invalid (op : BitVec 4) (a b c : RegIdx)
deriving DecidableEq, Repr

/-- R74: the decoder, a pure total function of one Word that never raises a fault. -/
def decode (w : Word) : Decoded :=
  if opField w = 13#4 then .loadImm (aImmField w) (immField w)
  else if opField w ≤ 12#4 then .threeReg (opField w) (aField w) (bField w) (cField w)
  else .invalid (opField w) (aField w) (bField w) (cField w)

/-- 40_execution_engine.md R92: the one instruction a decoded word selects, or none for `Invalid`
(and for a three-register opcode above 12, which the decoder never produces). -/
def selectInstr : Decoded → Option Instr
  | .threeReg op a b c =>
    match op.toNat with
    | 0 => some (.cmov a b c)
    | 1 => some (.sload a b c)
    | 2 => some (.sstore a b c)
    | 3 => some (.add a b c)
    | 4 => some (.mul a b c)
    | 5 => some (.div a b c)
    | 6 => some (.nand a b c)
    | 7 => some .halt
    | 8 => some (.map b c)
    | 9 => some (.unmap c)
    | 10 => some (.out c)
    | 11 => some (.inp c)
    | 12 => some (.loadp b c)
    | _ => none
  | .loadImm a imm => some (.loadi a imm.toNat)
  | .invalid _ _ _ _ => none

/-- The instruction a Word stands for; none exactly for opcodes 14 and 15 (R75, R79). -/
def decodeInstr (w : Word) : Option Instr := selectInstr (decode w)

/-- The instruction of a word of `nbits` bits numbered as spec/opcode_table.json numbers them: one
32-bit Word, bit 0 its least significant bit, the bits above `nbits` zero (R70). -/
def decodeTableWord (nbits w : Nat) : Option Instr := decodeInstr (BitVec.ofNat 32 (w % 2 ^ nbits))

/-! ## The encoder -/

/-- R80: a three-register word, the unused bits 27:9 zero. -/
def enc3 (op : BitVec 4) (a b c : RegIdx) : Word :=
  (op.setWidth 32 <<< 28) ||| (BitVec.ofNat 32 a.val <<< 6) ||| (BitVec.ofNat 32 b.val <<< 3)
    ||| BitVec.ofNat 32 c.val

/-- R80: a load-immediate word. -/
def encI (a : RegIdx) (imm : BitVec 25) : Word :=
  (13#32 <<< 28) ||| (BitVec.ofNat 32 a.val <<< 25) ||| imm.setWidth 32

/-- The word of an instruction (R80); register fields it does not use are assembled as 0 (R82). -/
def encode : Instr → Word
  | .cmov a b c => enc3 0#4 a b c
  | .sload a b c => enc3 1#4 a b c
  | .sstore a b c => enc3 2#4 a b c
  | .add a b c => enc3 3#4 a b c
  | .mul a b c => enc3 4#4 a b c
  | .div a b c => enc3 5#4 a b c
  | .nand a b c => enc3 6#4 a b c
  | .halt => enc3 7#4 0 0 0
  | .map b c => enc3 8#4 0 b c
  | .unmap c => enc3 9#4 0 0 c
  | .out c => enc3 10#4 0 0 c
  | .inp c => enc3 11#4 0 0 c
  | .loadp b c => enc3 12#4 0 b c
  | .loadi a imm => encI a (BitVec.ofNat 25 imm)

/-- R80: the assembler, which refuses an instruction that does not fit its encoding. -/
def assemble (i : Instr) : Option Word := if WellFormed i then some (encode i) else none

/-- The opcode of an instruction (R75). -/
def opcodeOf : Instr → BitVec 4
  | .cmov _ _ _ => 0#4
  | .sload _ _ _ => 1#4
  | .sstore _ _ _ => 2#4
  | .add _ _ _ => 3#4
  | .mul _ _ _ => 4#4
  | .div _ _ _ => 5#4
  | .nand _ _ _ => 6#4
  | .halt => 7#4
  | .map _ _ => 8#4
  | .unmap _ => 9#4
  | .out _ => 10#4
  | .inp _ => 11#4
  | .loadp _ _ => 12#4
  | .loadi _ _ => 13#4

/-! ## Assembly spelling -/

/-- R82: the register's name, `r0` to `r7`. -/
def regName (r : RegIdx) : String := "r" ++ toString r.val

/-- R82: the line of assembly that stands for an instruction, operands in field order. -/
def assemblyLine : Instr → String
  | .cmov a b c => "cmov " ++ regName a ++ ", " ++ regName b ++ ", " ++ regName c
  | .sload a b c => "sload " ++ regName a ++ ", " ++ regName b ++ ", " ++ regName c
  | .sstore a b c => "sstore " ++ regName a ++ ", " ++ regName b ++ ", " ++ regName c
  | .add a b c => "add " ++ regName a ++ ", " ++ regName b ++ ", " ++ regName c
  | .mul a b c => "mul " ++ regName a ++ ", " ++ regName b ++ ", " ++ regName c
  | .div a b c => "div " ++ regName a ++ ", " ++ regName b ++ ", " ++ regName c
  | .nand a b c => "nand " ++ regName a ++ ", " ++ regName b ++ ", " ++ regName c
  | .halt => "halt"
  | .map b c => "map " ++ regName b ++ ", " ++ regName c
  | .unmap c => "unmap " ++ regName c
  | .out c => "out " ++ regName c
  | .inp c => "in " ++ regName c
  | .loadp b c => "loadp " ++ regName b ++ ", " ++ regName c
  | .loadi a imm => "loadi " ++ regName a ++ ", " ++ toString imm

end Sys2Proof
end

