-- ==== Sys2Proof/Machine/Fetch.lean ====
section
/-!
DEFINITION. The engine around an instruction (40_execution_engine.md R90-R95): when no step exists,
the fetch with its bound, and decoding what was fetched.
-/

namespace Sys2Proof.Machine

/-- The refusal a mark stands for (R167). -/
def refusalOf : RefusalMark → Refusal
  | .idSpaceExhausted => .idSpaceExhausted
  | .capacityExhausted => .capacityExhausted

/-- The outcome of a step where there is none: after a refusal (R167, D26), and in the two terminal
states (R95). None in Running. -/
def stopped (s : State) : Option (Host.Outcome State Fault Refusal) :=
  match s.refused with
  | some m => some (.refused (refusalOf m))
  | none =>
    match s.runState with
    | .running => none
    | .halted => some (.fault .alreadyHalted)
    | .faulted => some (.fault .alreadyFaulted)

/-- R91: the Word at (segment 0, pc), or InvalidInstruction when the pc is not below the length of
segment 0 at this moment. -/
def fetchWord (s : State) : Except FaultKind Word :=
  match s.segment 0#32 with
  | none => .error .invalidInstruction
  | some g => if s.pc.toNat < g.len then .ok (segmentGet g s.pc.toNat) else .error .invalidInstruction

/-- R90: fetch, then decode; a word of opcode 14 or 15 raises InvalidInstruction (R79, R92). -/
def fetchInstr (s : State) : Except FaultKind Instr :=
  match fetchWord s with
  | .error k => .error k
  | .ok w =>
    match decodeInstr w with
    | some i => .ok i
    | none => .error .invalidInstruction

/-- Segment 0 with a word stored at an offset, made long enough to hold it: how a test places one
instruction (log entry 17). -/
def placeWord (s : State) (off : Nat) (w : Word) : State :=
  match s.segment 0#32 with
  | none => s.setSegment 0#32 (segmentPut (zeroSegment (off + 1)) off w)
  | some g => s.setSegment 0#32 (segmentPut { g with len := max g.len (off + 1) } off w)

end Sys2Proof.Machine
end

