-- ==== Sys2Proof/Machine/Step.lean ====
section
/-!
DEFINITION. One step of the machine (40_execution_engine.md R90).
-/

namespace Sys2Proof.Machine

/-- R90: fetch, decode, dispatch; each meaning ends with its own pc update (R93). -/
def step (s : State) : Host.Outcome State Fault Refusal :=
  match stopped s with
  | some o => o
  | none =>
    match fetchInstr s with
    | .error k => .next (s.raise k)
    | .ok i => exec i s

/-- The state with one instruction, its bits numbered as spec/opcode_table.json numbers them, stored
at (segment 0, pc) in a machine that is Running (log entry 17). -/
def State.withFetchWord (s : State) (nbits w : Nat) : State :=
  { placeWord s s.pc.toNat (BitVec.ofNat 32 (w % 2 ^ nbits)) with
    runState := .running, fault := none, refused := none }

end Sys2Proof.Machine
end

