-- ==== Sys2Proof/Machine/HostPort.lean ====
section
/-!
DEFINITION. What the host does with the block (60_exceptions.md R166): loading the program image
(70_reset_and_hazards.md R180-R183) and reading the end of a run (R155).
-/

namespace Sys2Proof.Machine

/-! ## Loading the image -/

/-- R181: four bytes as one Word, the first byte bits 31:24. -/
def bigEndianWord (b0 b1 b2 b3 : Byte) : Word := b0 ++ b1 ++ b2 ++ b3

/-- R181, R182: the words of an image, or none when its length is no multiple of 4. -/
def imageWords : List Byte → Option (List Word)
  | [] => some []
  | b0 :: b1 :: b2 :: b3 :: rest => (imageWords rest).map fun ws => bigEndianWord b0 b1 b2 b3 :: ws
  | [_] => none
  | [_, _] => none
  | [_, _, _] => none

/-- R180: the initial state with a program, its input bytes and the parameter `capacity_words`. -/
def launchWords (capacity : Option Nat) (ws : List Word) (input : List Byte) : State :=
  { State.reset with seg := [(0, segmentOfWords ws)], inp := input, capacityWords := capacity }

/-- R183: the host checks the image's length, and the block takes the initial state; none is the
load-time error of R182. -/
def launch (capacity : Option Nat) (image input : List Byte) : Option State :=
  match imageWords image with
  | none => none
  | some ws =>
    if ws.length ≤ Config.maxSegmentWords then some (launchWords capacity ws input) else none

/-! ## The end of a run -/

/-- R28: the code of `run_state` (D10: log entry 14). -/
def runStateCode : RunState → Nat
  | .running => 0
  | .halted => 1
  | .faulted => 2

/-- R150: the code of a fault kind (D10: log entry 14). -/
def faultCode : FaultKind → BitVec 3
  | .divideByZero => 1#3
  | .invalidAccess => 2#3
  | .invalidOutput => 3#3
  | .invalidInstruction => 4#3

/-- What the host reads at the end of a run (R155, R166). -/
structure Report where
  /-- `run_state`, by its code. -/
  status : Nat
  /-- The fault's kind by its code, 0 when there is none. -/
  kind : BitVec 3
  /-- The fault's pc. -/
  pc : Option Word
  /-- The bytes emitted. -/
  bytes : List Byte
deriving DecidableEq, Repr

/-- R155: the report of a run that has ended, none while it goes on or when it was refused. -/
def State.report (s : State) : Option Report :=
  match s.refused, s.runState with
  | some _, _ => none
  | none, .running => none
  | none, .halted => some ⟨runStateCode s.runState, (s.fault.map fun f => faultCode f.kind).getD 0#3, s.fault.map (·.pc), s.out⟩
  | none, .faulted => some ⟨runStateCode s.runState, (s.fault.map fun f => faultCode f.kind).getD 0#3, s.fault.map (·.pc), s.out⟩

/-- R166: the host's exit status, 0 after Halt and some non-zero number after a fault (D12: log entry
14). -/
def State.exitStatus (s : State) : Option Nat :=
  match s.refused, s.runState with
  | some _, _ => none
  | none, .running => none
  | none, .halted => some 0
  | none, .faulted => some (Config.faultExitStatusLessOne + 1)

end Sys2Proof.Machine
end

