-- ==== Sys2Proof/Safety.lean ====
section
/-!
DEFINITION. The terms statements are written in: what a step leaves as it was, what raising a fault
is, which register, segment and bytes an instruction may write (10_state.md R23), when an
instruction must fault (60_exceptions.md R151), the invariants of 10_state.md R33, and
what a run reaches.
-/

namespace Sys2Proof.Machine

/-! ## What stays as it was -/

/-- Every register but one is as before. -/
def KeepsRegsBut (a : RegIdx) (s t : State) : Prop := ∀ r, r ≠ a → t.reg r = s.reg r

/-- Every register is as before. -/
def KeepsRegs (s t : State) : Prop := ∀ r, t.reg r = s.reg r

/-- The ids yet to be handed out are as before. -/
def KeepsIds (s t : State) : Prop := t.nextId = s.nextId ∧ t.free = s.free

/-- The whole segment table is as before: which ids are live, every length, and the word read at
every address. -/
def KeepsSegments (s t : State) : Prop :=
  (∀ id, t.segWords id = s.segWords id) ∧ (∀ id off, memRead id off t = memRead id off s) ∧
    KeepsIds s t

/-- Every segment but one is as before, and so is the word read at every address in them. -/
def KeepsSegmentsBut (a : Word) (s t : State) : Prop :=
  (∀ id, id ≠ a → t.segWords id = s.segWords id) ∧
    ∀ id off, id ≠ a → memRead id off t = memRead id off s

/-- The byte streams are as before. -/
def KeepsStreams (s t : State) : Prop := t.out = s.out ∧ t.inp = s.inp

/-- The engine's state, the fault record, the refusal mark and the parameter are as before. -/
def KeepsEngine (s t : State) : Prop :=
  t.runState = s.runState ∧ t.fault = s.fault ∧ t.refused = s.refused ∧
    t.capacityWords = s.capacityWords

/-- Nothing but one register and the pc changes, and the pc moves to the next word (R93). -/
def WritesOnly (a : RegIdx) (s t : State) : Prop :=
  t.pc = s.pc + 1#32 ∧ KeepsRegsBut a s t ∧ KeepsSegments s t ∧ KeepsStreams s t ∧ KeepsEngine s t

/-- A segment of `n` zero words was made under `id`, and `x[b]` holds that id; no other register, no
other segment, no stream and no part of the engine has changed, and the pc is at the next word (R43,
R121). -/
def MapsSegment (b : RegIdx) (id : Word) (n : Nat) (s t : State) : Prop :=
  t.reg b = id ∧ t.segWords id = some (List.replicate n 0#32) ∧ t.pc = s.pc + 1#32 ∧
    KeepsRegsBut b s t ∧ KeepsSegmentsBut id s t ∧ KeepsStreams s t ∧ KeepsEngine s t

/-- The fault `k` was raised: the run has ended in Faulted with the pc recorded, and nothing else has
changed: the meaning 00_scope.md R10 gives `raise K(pc)` (that the pc and the streams are unchanged,
and the recorded pc, are the spec's decisions D9 and D11: log entry 13). -/
def Raises (k : FaultKind) (s t : State) : Prop :=
  t.runState = .faulted ∧ t.fault = some ⟨k, s.pc⟩ ∧ t.pc = s.pc ∧ KeepsRegs s t ∧
    KeepsSegments s t ∧ KeepsStreams s t ∧ t.refused = s.refused ∧
    t.capacityWords = s.capacityWords

/-- The step was refused with the mark `m`, and nothing else has changed (R10, R167). -/
def Refuses (m : RefusalMark) (s t : State) : Prop :=
  t.refused = some m ∧ t.pc = s.pc ∧ KeepsRegs s t ∧ KeepsSegments s t ∧ KeepsStreams s t ∧
    t.runState = s.runState ∧ t.fault = s.fault ∧ t.capacityWords = s.capacityWords

/-! ## What an instruction may write -/

/-- The register an instruction may write (10_state.md R23). -/
def writtenReg : Instr → Option RegIdx
  | .cmov a _ _ => some a
  | .sload a _ _ => some a
  | .sstore _ _ _ => none
  | .add a _ _ => some a
  | .mul a _ _ => some a
  | .div a _ _ => some a
  | .nand a _ _ => some a
  | .halt => none
  | .map b _ => some b
  | .unmap _ => none
  | .out _ => none
  | .inp c => some c
  | .loadp _ _ => none
  | .loadi a _ => some a

/-- The id of the segment an instruction may change: the stored-to segment (R102), the id a map takes
(R43), the unmapped segment (R122), or segment 0 when a program is loaded (R140). -/
def writtenSegment (i : Instr) (s : State) : Option Word :=
  match i with
  | .sstore a _ _ => some (s.reg a)
  | .map _ _ => (takeId s).map fun r => r.1
  | .unmap c => some (s.reg c)
  | .loadp b _ => if s.reg b = 0#32 then none else some 0#32
  | .cmov _ _ _ => none
  | .sload _ _ _ => none
  | .add _ _ _ => none
  | .mul _ _ _ => none
  | .div _ _ _ => none
  | .nand _ _ _ => none
  | .halt => none
  | .out _ => none
  | .inp _ => none
  | .loadi _ _ => none

/-- The bytes an instruction emits: one for an Output of a byte's value (R130), else none. -/
def emittedBytes (i : Instr) (s : State) : List Byte :=
  match i with
  | .out c => if (s.reg c).toNat ≤ 255 then [BitVec.ofNat 8 (s.reg c).toNat] else []
  | .cmov _ _ _ => []
  | .sload _ _ _ => []
  | .sstore _ _ _ => []
  | .add _ _ _ => []
  | .mul _ _ _ => []
  | .div _ _ _ => []
  | .nand _ _ _ => []
  | .halt => []
  | .map _ _ => []
  | .unmap _ => []
  | .inp _ => []
  | .loadp _ _ => []
  | .loadi _ _ => []

/-- How many bytes an instruction takes from the input, while there are any: one for an Input (R131). -/
def consumedBytes : Instr → Nat
  | .inp _ => 1
  | .cmov _ _ _ => 0
  | .sload _ _ _ => 0
  | .sstore _ _ _ => 0
  | .add _ _ _ => 0
  | .mul _ _ _ => 0
  | .div _ _ _ => 0
  | .nand _ _ _ => 0
  | .halt => 0
  | .map _ _ => 0
  | .unmap _ => 0
  | .out _ => 0
  | .loadp _ _ => 0
  | .loadi _ _ => 0

/-! ## When an instruction must fault -/

/-- R151's rows for the instructions: the fault that is due, if any. -/
def faultDue (i : Instr) (s : State) : Option FaultKind :=
  match i with
  | .sload _ b c =>
    match s.segWords (s.reg b) with
    | none => some .invalidAccess
    | some ws => if ws.length ≤ (s.reg c).toNat then some .invalidAccess else none
  | .sstore a b _ =>
    match s.segWords (s.reg a) with
    | none => some .invalidAccess
    | some ws => if ws.length ≤ (s.reg b).toNat then some .invalidAccess else none
  | .div _ _ c => if s.reg c = 0#32 then some .divideByZero else none
  | .unmap c =>
    if s.reg c = 0#32 ∨ s.segWords (s.reg c) = none then some .invalidAccess else none
  | .loadp b _ =>
    if s.reg b ≠ 0#32 ∧ s.segWords (s.reg b) = none then some .invalidAccess else none
  | .out c => if 255 < (s.reg c).toNat then some .invalidOutput else none
  | .cmov _ _ _ => none
  | .add _ _ _ => none
  | .mul _ _ _ => none
  | .nand _ _ _ => none
  | .halt => none
  | .map _ _ => none
  | .inp _ => none
  | .loadi _ _ => none

/-! ## The invariants -/

/-- R33: what is true of the segment table in every reachable state. -/
structure TableInv (s : State) : Prop where
  /-- Item 1: `seg[0] != None`. -/
  programLive : s.live 0#32 = true
  /-- Item 2: no id from `next_id` on is live. -/
  unminted : ∀ id : Word, s.nextId ≤ id.toNat → s.live id = false
  /-- Item 3: `free` holds each id in 1..next_id-1 that is not live, and no other. -/
  freeExact : ∀ id : Word, id ∈ s.free ↔ 1 ≤ id.toNat ∧ id.toNat < s.nextId ∧ s.live id = false
  /-- Item 3: and holds it exactly once. -/
  freeOnce : s.free.Nodup
  /-- Item 4: 0 is never in `free`. -/
  zeroKept : 0#32 ∉ s.free
  /-- Item 5: every live segment has length at most 2^32 - 1. -/
  bounded : ∀ (id : Word) (ws : List Word), s.segWords id = some ws → ws.length ≤ 2 ^ 32 - 1

/-- The machine's invariant: R33, the range of `next_id` (10_state.md), the fault record's legal values
(R29), the refusal mark only while Running (R167), and the canonical form of the memory. -/
structure State.Inv (s : State) : Prop where
  /-- R33. -/
  table : TableInv s
  /-- `1 <= next_id <= 2^32`. -/
  idRange : 1 ≤ s.nextId ∧ s.nextId ≤ 2 ^ 32
  /-- R29: `Some` exactly when Faulted. -/
  faultRecord : s.fault.isSome = true ↔ s.runState = .faulted
  /-- R167: a refused run never ended. -/
  markRunning : s.refused.isSome = true → s.runState = .running
  /-- The memory is canonical. -/
  memory : Memory.wf s.seg

/-! ## Runs -/

/-- A step exists (R90, R95, D26). -/
def State.canStep (s : State) : Prop := s.refused = none ∧ s.runState = .running

/-- The run has ended (R155). -/
def State.ended (s : State) : Prop := s.runState = .halted ∨ s.runState = .faulted

/-- A run of some number of steps leads from one state to the other. -/
def Reaches (s t : State) : Prop := ∃ k, Host.Core.run Sys2Proof.core k s = .next t

/-! ## Many maps and unmaps -/

/-- Unmap the listed ids one after the other (R44). -/
def unmapAll : List Word → State → Except FaultKind State
  | [], s => .ok s
  | id :: ids, s =>
    match segUnmap id s with
    | .error k => .error k
    | .ok t => unmapAll ids t

/-- Map segments of the listed sizes one after the other, and give their ids in order (R43). -/
def mapAll : List Word → State → Except RefusalMark (List Word × State)
  | [], s => .ok ([], s)
  | n :: ns, s =>
    match segMap n s with
    | .error m => .error m
    | .ok (id, t) => (mapAll ns t).map fun r => (id :: r.1, r.2)

end Sys2Proof.Machine
end

