-- ==== Sys2Proof/Certificates/Slice0/Obligations.lean ====
section
/-!
DEFINITION. The statements for the provers. Where a clause rests on a choice that the spec marks as
its own (a decision D<n>), the docstring names it and the statement's basis is 'derived'.
-/

open Sys2Proof Sys2Proof.Machine

/-! ## Encoding -/

/-- R80: the encoder's two formulas, the round trip through the decoder for every operand, and the
assembler's refusal of an immediate that does not fit. -/
def Obligations.DecoderRecoversWhatTheEncoderPacked : Prop :=
  (∀ (op : BitVec 4) (a b c : RegIdx), op ≠ 13#4 →
    (enc3 op a b c).toNat = op.toNat * 2 ^ 28 + a.val * 2 ^ 6 + b.val * 2 ^ 3 + c.val ∧
    decode (enc3 op a b c) =
      if op.toNat ≤ 12 then Decoded.threeReg op a b c else Decoded.invalid op a b c) ∧
  (∀ (a : RegIdx) (imm : BitVec 25),
    (encI a imm).toNat = 13 * 2 ^ 28 + a.val * 2 ^ 25 + imm.toNat ∧
    decode (encI a imm) = Decoded.loadImm a imm) ∧
  ∀ (a : RegIdx) (v : Nat),
    assemble (.loadi a v) = if v < 2 ^ 25 then some (encI a (BitVec.ofNat 25 v)) else none

/-- Decode and encode agree on every well-formed instruction, at every operand value. -/
def Obligations.DecodeOfEncodeIsTheInstruction : Prop :=
  ∀ i : Instr, WellFormed i = true → decodeInstr (encode i) = some i

/-- R75, for every word: the instruction is the one the opcode map gives its bits 31:28, with the
fields of R72 and R73. The numbers 0 to 12 rest on D2 and the bit numbering on D1 (log entries 7, 8). -/
def Obligations.EveryWordDecodesByItsOpcode : Prop :=
  ∀ w : Word,
    decodeInstr w =
      match w.toNat / 2 ^ 28 with
      | 0 => some (.cmov (Fin.ofNat 8 (w.toNat / 2 ^ 6)) (Fin.ofNat 8 (w.toNat / 2 ^ 3)) (Fin.ofNat 8 w.toNat))
      | 1 => some (.sload (Fin.ofNat 8 (w.toNat / 2 ^ 6)) (Fin.ofNat 8 (w.toNat / 2 ^ 3)) (Fin.ofNat 8 w.toNat))
      | 2 => some (.sstore (Fin.ofNat 8 (w.toNat / 2 ^ 6)) (Fin.ofNat 8 (w.toNat / 2 ^ 3)) (Fin.ofNat 8 w.toNat))
      | 3 => some (.add (Fin.ofNat 8 (w.toNat / 2 ^ 6)) (Fin.ofNat 8 (w.toNat / 2 ^ 3)) (Fin.ofNat 8 w.toNat))
      | 4 => some (.mul (Fin.ofNat 8 (w.toNat / 2 ^ 6)) (Fin.ofNat 8 (w.toNat / 2 ^ 3)) (Fin.ofNat 8 w.toNat))
      | 5 => some (.div (Fin.ofNat 8 (w.toNat / 2 ^ 6)) (Fin.ofNat 8 (w.toNat / 2 ^ 3)) (Fin.ofNat 8 w.toNat))
      | 6 => some (.nand (Fin.ofNat 8 (w.toNat / 2 ^ 6)) (Fin.ofNat 8 (w.toNat / 2 ^ 3)) (Fin.ofNat 8 w.toNat))
      | 7 => some .halt
      | 8 => some (.map (Fin.ofNat 8 (w.toNat / 2 ^ 3)) (Fin.ofNat 8 w.toNat))
      | 9 => some (.unmap (Fin.ofNat 8 w.toNat))
      | 10 => some (.out (Fin.ofNat 8 w.toNat))
      | 11 => some (.inp (Fin.ofNat 8 w.toNat))
      | 12 => some (.loadp (Fin.ofNat 8 (w.toNat / 2 ^ 3)) (Fin.ofNat 8 w.toNat))
      | 13 => some (.loadi (Fin.ofNat 8 (w.toNat / 2 ^ 25)) (w.toNat % 2 ^ 25))
      | _ => none

/-- R77, R78 (decision D3, log entry 9): two words that differ only in bits 27:9 of a three-register
word, or in register fields the instruction does not use, decode to the same instruction. -/
def Obligations.IgnoredBitsNeverChangeTheInstruction : Prop :=
  ∀ v w : Word, v.toNat / 2 ^ 28 = w.toNat / 2 ^ 28 →
    (w.toNat / 2 ^ 28 ≤ 12 → v.toNat % 2 ^ 9 = w.toNat % 2 ^ 9 → decodeInstr v = decodeInstr w) ∧
    (w.toNat / 2 ^ 28 = 7 → decodeInstr v = decodeInstr w) ∧
    (w.toNat / 2 ^ 28 = 8 ∨ w.toNat / 2 ^ 28 = 12 → v.toNat % 2 ^ 6 = w.toNat % 2 ^ 6 →
      decodeInstr v = decodeInstr w) ∧
    (w.toNat / 2 ^ 28 = 9 ∨ w.toNat / 2 ^ 28 = 10 ∨ w.toNat / 2 ^ 28 = 11 →
      v.toNat % 2 ^ 3 = w.toNat % 2 ^ 3 → decodeInstr v = decodeInstr w)

/-- Words of 95_test_vectors.md decode as it says. -/
def Obligations.SampleWordsDecodeAsListed : Prop :=
  decodeInstr 0x0FFFFE53#32 = some (.cmov 1 2 3) ∧
  decodeInstr 0x300000CA#32 = some (.add 3 1 2) ∧
  decodeInstr 0x80000011#32 = some (.map 2 1) ∧
  decodeInstr 0xA00001FF#32 = some (.out 7) ∧
  decodeInstr 0xC0000013#32 = some (.loadp 2 3) ∧
  decodeInstr 0xD2000019#32 = some (.loadi 1 25) ∧
  decodeInstr 0xE0000000#32 = none

/-! ## The engine -/

/-- R79: opcodes 14 and 15 decode, and their dispatch raises InvalidInstruction with no state changed;
every other word is a valid instruction. The unchanged pc and streams and the recorded pc of `Raises`
are the spec's decisions D9 and D11 (log entry 13). -/
def Obligations.UndefinedOpcodesRaiseInvalidInstruction : Prop :=
  (∀ w : Word, 14 ≤ w.toNat / 2 ^ 28 →
    (∃ op a b c, decode w = Decoded.invalid op a b c) ∧
    ∀ (s : State) (ws : List Word), s.canStep → s.segWords 0#32 = some ws →
      ws[s.pc.toNat]? = some w → ∃ t, step s = .next t ∧ Raises .invalidInstruction s t) ∧
  ∀ w : Word, w.toNat / 2 ^ 28 ≤ 13 → ∃ i, decodeInstr w = some i

/-- R90: when the word at (segment 0, pc) decodes to an instruction, the step is that instruction. -/
def Obligations.StepRunsTheDecodedInstruction : Prop :=
  ∀ (s : State) (ws : List Word) (w : Word) (i : Instr), s.canStep → s.segWords 0#32 = some ws →
    ws[s.pc.toNat]? = some w → decodeInstr w = some i → step s = exec i s

/-- The instruction that `withFetchWord` places is the one the next step runs (log entry 17: the
model's own device for testing, not the spec's). -/
def Obligations.PlacedInstructionIsRunNext : Prop :=
  ∀ (s : State) (w : Nat) (i : Instr), decodeTableWord 32 w = some i →
    step (s.withFetchWord 32 w) = exec i (s.withFetchWord 32 w)

/-- R91: a pc at or past the end of segment 0 faults at the fetch, against the length segment 0 has at
that moment; any other pc fetches its word. The unchanged pc and streams and the recorded pc of
`Raises` are the spec's decisions D9 and D11 (log entry 13). -/
def Obligations.FetchChecksTheCurrentLength : Prop :=
  ∀ (s : State) (ws : List Word), s.segWords 0#32 = some ws →
    (s.canStep → ws.length ≤ s.pc.toNat →
      ∃ t, step s = .next t ∧ Raises .invalidInstruction s t) ∧
    ∀ h : s.pc.toNat < ws.length, fetchWord s = .ok ws[s.pc.toNat]

/-- R95: no step exists from Halted or Faulted, and only a Halt instruction or a fault ends a run. That
such a step is answered by the outcome fault is the model's reading (log entry 4); the unchanged pc
and streams and the recorded pc of `Raises` are the spec's decisions D9 and D11 (log entry 13). -/
def Obligations.OnlyHaltOrFaultStopsAndNothingResumes : Prop :=
  (∀ s : State, s.refused = none →
    (s.runState = .halted → step s = .fault .alreadyHalted) ∧
    (s.runState = .faulted → step s = .fault .alreadyFaulted)) ∧
  ∀ s t : State, step s = .next t → t.ended →
    (fetchInstr s = .ok .halt ∧ t.runState = .halted) ∨ ∃ k, Raises k s t

/-- A state with a refusal mark has no successor (decision D26, log entry 5). -/
def Obligations.RefusedStateHasNoSuccessor : Prop :=
  ∀ s : State,
    (s.refused = some .idSpaceExhausted → step s = .refused .idSpaceExhausted) ∧
    (s.refused = some .capacityExhausted → step s = .refused .capacityExhausted)

/-- R159 read over the model (decision D17, log entry 18): every instruction can be executed in every
state, and a step exists exactly in Running with no refusal mark. -/
def Obligations.EveryInstructionAnswersANextState : Prop :=
  (∀ (i : Instr) (s : State), ∃ t, exec i s = .next t) ∧
  ∀ s : State, (∃ t, step s = .next t) ↔ s.canStep

/-- R152 (pc, streams and the recorded pc are decisions D9 and D11, log entry 13): a step that ends in
Faulted changes nothing else, and records the kind and its own pc. -/
def Obligations.FaultsArePrecise : Prop :=
  ∀ s t : State, step s = .next t → t.runState = .faulted → ∃ k, Raises k s t

/-- R151: which step raises which fault, and no other does. The unchanged pc and streams and the
recorded pc of `Raises` are the spec's decisions D9 and D11 (log entry 13). -/
def Obligations.FaultsAreRaisedExactlyWhenDue : Prop :=
  ∀ (s : State) (ws : List Word), s.canStep → s.segWords 0#32 = some ws →
    (ws.length ≤ s.pc.toNat → ∃ t, step s = .next t ∧ Raises .invalidInstruction s t) ∧
    ∀ w, ws[s.pc.toNat]? = some w →
      match decodeInstr w with
      | none => ∃ t, step s = .next t ∧ Raises .invalidInstruction s t
      | some i =>
        match faultDue i s with
        | some k => ∃ t, step s = .next t ∧ Raises k s t
        | none => ∃ t, step s = .next t ∧ t.runState ≠ .faulted

/-! ## Conditional move, load and store -/

/-- R100. -/
def Obligations.ConditionalMoveCopiesOnNonZero : Prop :=
  ∀ (a b c : RegIdx) (s : State), ∃ t, exec (.cmov a b c) s = .next t ∧
    (s.reg c ≠ 0#32 → t.reg a = s.reg b) ∧ (s.reg c = 0#32 → t.reg a = s.reg a) ∧
    WritesOnly a s t

/-- R101: the word read, or InvalidAccess for an id that is not live or an offset past the end. The
unchanged pc and streams and the recorded pc of `Raises` are the spec's decisions D9 and D11 (log
entry 13). -/
def Obligations.SegmentedLoadReadsOneWord : Prop :=
  ∀ (a b c : RegIdx) (s : State),
    (∀ (ws : List Word) (v : Word), s.segWords (s.reg b) = some ws →
      ws[(s.reg c).toNat]? = some v →
      ∃ t, exec (.sload a b c) s = .next t ∧ t.reg a = v ∧ WritesOnly a s t) ∧
    ((s.segWords (s.reg b) = none ∨
        ∃ ws, s.segWords (s.reg b) = some ws ∧ ws.length ≤ (s.reg c).toNat) →
      ∃ t, exec (.sload a b c) s = .next t ∧ Raises .invalidAccess s t)

/-- R102: one word of one segment is replaced, at (x[a], x[b]); every other address of all of memory
reads as before. Or InvalidAccess, where the unchanged pc and streams and the recorded pc of `Raises`
are the spec's decisions D9 and D11 (log entry 13). -/
def Obligations.SegmentedStoreWritesOneWord : Prop :=
  ∀ (a b c : RegIdx) (s : State),
    (∀ ws : List Word, s.segWords (s.reg a) = some ws → (s.reg b).toNat < ws.length →
      ∃ t, exec (.sstore a b c) s = .next t ∧
        t.segWords (s.reg a) = some (ws.set (s.reg b).toNat (s.reg c)) ∧
        memRead (s.reg a) (s.reg b) t = .ok (s.reg c) ∧
        (∀ id off, ¬(id = s.reg a ∧ off = s.reg b) → memRead id off t = memRead id off s) ∧
        KeepsSegmentsBut (s.reg a) s t ∧ KeepsIds s t ∧ t.pc = s.pc + 1#32 ∧ KeepsRegs s t ∧
        KeepsStreams s t ∧ KeepsEngine s t) ∧
    ((s.segWords (s.reg a) = none ∨
        ∃ ws, s.segWords (s.reg a) = some ws ∧ ws.length ≤ (s.reg b).toNat) →
      ∃ t, exec (.sstore a b c) s = .next t ∧ Raises .invalidAccess s t)

/-! ## Arithmetic and logic -/

/-- R111. -/
def Obligations.AddWritesTheSumModulo : Prop :=
  ∀ (a b c : RegIdx) (s : State), ∃ t, exec (.add a b c) s = .next t ∧
    (t.reg a).toNat = ((s.reg b).toNat + (s.reg c).toNat) % 2 ^ 32 ∧ WritesOnly a s t

/-- R112. -/
def Obligations.MultiplyWritesTheProductModulo : Prop :=
  ∀ (a b c : RegIdx) (s : State), ∃ t, exec (.mul a b c) s = .next t ∧
    (t.reg a).toNat = ((s.reg b).toNat * (s.reg c).toNat) % 2 ^ 32 ∧ WritesOnly a s t

/-- R113: the quotient rounded down, or DivideByZero with the destination unchanged. The unchanged pc
and streams and the recorded pc of `Raises` are the spec's decisions D9 and D11 (log entry 13). -/
def Obligations.DivideWritesTheQuotientOrFaults : Prop :=
  ∀ (a b c : RegIdx) (s : State),
    (s.reg c ≠ 0#32 → ∃ t, exec (.div a b c) s = .next t ∧
      (t.reg a).toNat = (s.reg b).toNat / (s.reg c).toNat ∧ WritesOnly a s t) ∧
    (s.reg c = 0#32 → ∃ t, exec (.div a b c) s = .next t ∧ Raises .divideByZero s t)

/-- R114, bit by bit. -/
def Obligations.NandWritesTheComplementOfTheAnd : Prop :=
  ∀ (a b c : RegIdx) (s : State), ∃ t, exec (.nand a b c) s = .next t ∧
    (∀ i, i < 32 →
      (t.reg a).getLsbD i = !((s.reg b).getLsbD i && (s.reg c).getLsbD i)) ∧
    WritesOnly a s t

/-! ## Halt, map and unmap -/

/-- R120: the run ends, and everything else stays: the pc, the fault record, every register, segment
and byte; and any word 0x7xxxxxxx is a halt. -/
def Obligations.HaltEndsTheRunAndKeepsAllElse : Prop :=
  (∀ w : Word, w.toNat / 2 ^ 28 = 7 → decodeInstr w = some .halt) ∧
  ∀ s : State, ∃ t, exec .halt s = .next t ∧ t.runState = .halted ∧ t.pc = s.pc ∧
    t.fault = s.fault ∧ t.refused = s.refused ∧ t.capacityWords = s.capacityWords ∧
    KeepsRegs s t ∧ KeepsSegments s t ∧ KeepsStreams s t

/-- R121 where an id and the storage are there (the two limits are decisions D7 and D8, log entries 2
and 12): the id is the most recently freed one, else `next_id`, and its segment is all zeros. -/
def Obligations.MapMakesAZeroSegmentUnderTheNextId : Prop :=
  ∀ (b c : RegIdx) (s : State),
    (∀ cap, s.capacityWords = some cap → s.liveWords + (s.reg c).toNat ≤ cap) →
    (∀ (id : Word) (rest : List Word), s.free = id :: rest →
      ∃ t, exec (.map b c) s = .next t ∧ MapsSegment b id (s.reg c).toNat s t ∧
        t.free = rest ∧ t.nextId = s.nextId) ∧
    (s.free = [] → s.nextId < 2 ^ 32 →
      ∃ t, exec (.map b c) s = .next t ∧
        MapsSegment b (BitVec.ofNat 32 s.nextId) (s.reg c).toNat s t ∧
        t.free = [] ∧ t.nextId = s.nextId + 1)

/-- The two refusals of a map (decisions D7, D8, D26; log entries 2, 5, 12): no state changes but the
mark. -/
def Obligations.MapIsRefusedOnExhaustion : Prop :=
  ∀ (b c : RegIdx) (s : State),
    (s.free = [] → s.nextId = 2 ^ 32 →
      ∃ t, exec (.map b c) s = .next t ∧ Refuses .idSpaceExhausted s t) ∧
    (∀ cap, (s.free ≠ [] ∨ s.nextId < 2 ^ 32) → s.capacityWords = some cap →
      cap < s.liveWords + (s.reg c).toNat →
      ∃ t, exec (.map b c) s = .next t ∧ Refuses .capacityExhausted s t)

/-- R122: the segment is gone and its id is the head of the free list, or InvalidAccess. The unchanged
pc and streams and the recorded pc of `Raises` are the spec's decisions D9 and D11 (log entry 13). -/
def Obligations.UnmapFreesTheSegmentOrFaults : Prop :=
  ∀ (c : RegIdx) (s : State),
    (s.reg c ≠ 0#32 → s.segWords (s.reg c) ≠ none →
      ∃ t, exec (.unmap c) s = .next t ∧ t.segWords (s.reg c) = none ∧
        t.free = s.reg c :: s.free ∧ t.nextId = s.nextId ∧ KeepsSegmentsBut (s.reg c) s t ∧
        t.pc = s.pc + 1#32 ∧ KeepsRegs s t ∧ KeepsStreams s t ∧ KeepsEngine s t) ∧
    ((s.reg c = 0#32 ∨ s.segWords (s.reg c) = none) →
      ∃ t, exec (.unmap c) s = .next t ∧ Raises .invalidAccess s t)

/-! ## Output and input -/

/-- R130: one byte is appended to the output, or InvalidOutput and none is. The unchanged pc and input
and the recorded pc of `Raises` are the spec's decisions D9 and D11 (log entry 13). -/
def Obligations.OutputEmitsOneByteOrFaults : Prop :=
  ∀ (c : RegIdx) (s : State),
    ((s.reg c).toNat ≤ 255 →
      ∃ t, exec (.out c) s = .next t ∧
        (∃ v : Byte, v.toNat = (s.reg c).toNat ∧ t.out = s.out ++ [v]) ∧ t.inp = s.inp ∧
        t.pc = s.pc + 1#32 ∧ KeepsRegs s t ∧ KeepsSegments s t ∧ KeepsEngine s t) ∧
    (255 < (s.reg c).toNat → ∃ t, exec (.out c) s = .next t ∧ Raises .invalidOutput s t)

/-- R131 (zero extension, and end of stream for good, are decision D13, log entry 15): the next input
byte, or 0xFFFFFFFF at end of stream with the input still empty. -/
def Obligations.InputReadsOneByteOrTheSentinel : Prop :=
  ∀ (c : RegIdx) (s : State),
    (∀ (v : Byte) (rest : List Byte), s.inp = v :: rest →
      ∃ t, exec (.inp c) s = .next t ∧ (t.reg c).toNat = v.toNat ∧ t.inp = rest ∧
        t.out = s.out ∧ t.pc = s.pc + 1#32 ∧ KeepsRegsBut c s t ∧ KeepsSegments s t ∧
        KeepsEngine s t) ∧
    (s.inp = [] →
      ∃ t, exec (.inp c) s = .next t ∧ t.reg c = 0xFFFFFFFF#32 ∧ WritesOnly c s t)

/-! ## Load program and load immediate -/

/-- R140 (the unchanged pc and the recorded pc of the faulting form are decisions D9 and D11, log
entry 13): a jump, with segment 0
replaced by a copy first when x[b] is not 0, or InvalidAccess. -/
def Obligations.LoadProgramJumpsAndMayReplaceSegmentZero : Prop :=
  ∀ (b c : RegIdx) (s : State),
    (s.reg b = 0#32 →
      ∃ t, exec (.loadp b c) s = .next t ∧ t.pc = s.reg c ∧ KeepsRegs s t ∧ KeepsSegments s t ∧
        KeepsStreams s t ∧ KeepsEngine s t) ∧
    (∀ ws : List Word, s.reg b ≠ 0#32 → s.segWords (s.reg b) = some ws →
      ∃ t, exec (.loadp b c) s = .next t ∧ t.pc = s.reg c ∧ t.segWords 0#32 = some ws ∧
        KeepsSegmentsBut 0#32 s t ∧ KeepsIds s t ∧ KeepsRegs s t ∧ KeepsStreams s t ∧
        KeepsEngine s t) ∧
    (s.reg b ≠ 0#32 → s.segWords (s.reg b) = none →
      ∃ t, exec (.loadp b c) s = .next t ∧ Raises .invalidAccess s t)

/-- R141: the 25-bit immediate, zero-extended. -/
def Obligations.LoadImmediateZeroExtends : Prop :=
  ∀ (a : RegIdx) (imm : Nat) (s : State), imm < 2 ^ 25 →
    ∃ t, exec (.loadi a imm) s = .next t ∧ (t.reg a).toNat = imm ∧ WritesOnly a s t

/-! ## The segment table -/

/-- R45: MemRead is an indexing of the segment's list of words, with its two checks. -/
def Obligations.MemReadIndexesTheSegment : Prop :=
  ∀ (id off : Word) (s : State),
    memRead id off s =
      match s.segWords id with
      | none => .error .invalidAccess
      | some ws =>
        match ws[off.toNat]? with
        | none => .error .invalidAccess
        | some v => .ok v

/-- R46: MemWrite makes the checks of R45 and then replaces one word; no other word, no length and
nothing else changes. -/
def Obligations.MemWriteReplacesOneWord : Prop :=
  ∀ (id off v : Word) (s : State),
    (∀ ws : List Word, s.segWords id = some ws → off.toNat < ws.length →
      ∃ t, memWrite id off v s = .ok t ∧ t.segWords id = some (ws.set off.toNat v) ∧
        KeepsSegmentsBut id s t ∧ KeepsIds s t ∧ KeepsRegs s t ∧ t.pc = s.pc ∧
        KeepsStreams s t ∧ KeepsEngine s t) ∧
    ((s.segWords id = none ∨ ∃ ws, s.segWords id = some ws ∧ ws.length ≤ off.toNat) →
      memWrite id off v s = .error .invalidAccess)

/-- R58: a word reads as it was last written, and a write changes no other word. -/
def Obligations.ReadReturnsTheLatestWrite : Prop :=
  ∀ (id off v : Word) (s t : State), memWrite id off v s = .ok t →
    memRead id off t = .ok v ∧
    ∀ j o, ¬(j = id ∧ o = off) → memRead j o t = memRead j o s

/-- R44: SegUnmap. -/
def Obligations.SegUnmapReleasesAndPushesTheId : Prop :=
  ∀ (id : Word) (s : State),
    (id ≠ 0#32 → s.segWords id ≠ none →
      ∃ t, segUnmap id s = .ok t ∧ t.segWords id = none ∧ t.free = id :: s.free ∧
        t.nextId = s.nextId ∧ KeepsSegmentsBut id s t) ∧
    ((id = 0#32 ∨ s.segWords id = none) → segUnmap id s = .error .invalidAccess) ∧
    ∀ (t u : State) (n id' : Word), segUnmap id s = .ok t → segMap n t = .ok (id', u) →
      id' = id ∧ u.segWords id = some (List.replicate n.toNat 0#32)

/-- R47: SegReplaceProgram copies the contents into segment 0; from id 0 it is a no-op; an id that is
not live is InvalidAccess. -/
def Obligations.SegReplaceProgramCopiesIntoSegmentZero : Prop :=
  ∀ (id : Word) (s : State),
    (s.segWords id = none → segReplaceProgram id s = .error .invalidAccess) ∧
    (∀ ws : List Word, s.segWords id = some ws →
      (id = 0#32 → segReplaceProgram id s = .ok s) ∧
      (id ≠ 0#32 → ∃ t, segReplaceProgram id s = .ok t ∧ t.segWords 0#32 = some ws ∧
        t.segWords id = some ws ∧ KeepsSegmentsBut 0#32 s t ∧ KeepsIds s t))

/-- R48: after a replacement the two segments are independent: writing, unmapping or reusing the
source leaves segment 0 as it was, and writing segment 0 leaves the source as it was. -/
def Obligations.ReplacementIsACopyNotAnAlias : Prop :=
  ∀ (id : Word) (s t : State), id ≠ 0#32 → segReplaceProgram id s = .ok t →
    (∀ off v u, memWrite id off v t = .ok u → u.segWords 0#32 = t.segWords 0#32) ∧
    (∀ u, segUnmap id t = .ok u → u.segWords 0#32 = t.segWords 0#32 ∧
      ∀ n u', segMap n u = .ok (id, u') → u'.segWords 0#32 = t.segWords 0#32) ∧
    ∀ off v u, memWrite 0#32 off v t = .ok u → u.segWords id = t.segWords id

/-- R50 (1): a map never returns a live id, nor 0. -/
def Obligations.MapNeverReturnsALiveId : Prop :=
  ∀ (s t : State) (n id : Word), s.Inv → segMap n s = .ok (id, t) →
    s.live id = false ∧ id ≠ 0#32

/-- R50 (2) and (3): ids freed one after the other come back in the reverse order. -/
def Obligations.FreedIdsComeBackLastFirst : Prop :=
  ∀ (ids ns : List Word) (s u : State), unmapAll ids s = .ok u → ns.length = ids.length →
    s.capacityWords = none →
    ∃ t, mapAll ns u = .ok (ids.reverse, t) ∧ t.free = s.free ∧ t.nextId = s.nextId

/-- R50 (4): with nothing freed, maps hand out `next_id`, `next_id + 1`, and so on: 1, 2, 3 from a
fresh table. -/
def Obligations.FreshIdsAreHandedOutInOrder : Prop :=
  ∀ (ns : List Word) (s : State), s.free = [] → s.capacityWords = none →
    s.nextId + ns.length ≤ 2 ^ 32 →
    ∃ t, mapAll ns s =
        .ok ((List.range ns.length).map fun k => BitVec.ofNat 32 (s.nextId + k), t) ∧
      t.free = [] ∧ t.nextId = s.nextId + ns.length

/-- R62: a store to the next word of the program is what the next fetch reads. -/
def Obligations.StoreToTheNextWordIsFetched : Prop :=
  ∀ (a b c : RegIdx) (s : State) (ws : List Word), s.segWords 0#32 = some ws →
    s.reg a = 0#32 → s.reg b = s.pc + 1#32 → (s.pc + 1#32).toNat < ws.length →
    ∃ t, exec (.sstore a b c) s = .next t ∧ fetchWord t = .ok (s.reg c)

/-! ## Invariants and whole-machine rules -/

/-- Every step keeps the invariant, from every state that has it: R33, the range of `next_id`, the
legal values of the fault record and of the refusal mark, and the canonical form of the memory. -/
def Obligations.EveryStepKeepsTheInvariant : Prop :=
  ∀ s t : State, s.Inv → step s = .next t → t.Inv

/-- The invariant holds at reset. -/
def Obligations.ResetHasTheInvariant : Prop := State.reset.Inv

/-- R33: its five items hold in every state that a run from any launch reaches. The bound on the lengths
is the spec's decision D6 (log entry 11), the table a launch starts with its decision D21 (log entry
10). -/
def Obligations.TableInvariantHoldsInEveryReachableState : Prop :=
  ∀ (capacity : Option Nat) (image input : List Byte) (s t : State),
    launch capacity image input = some s → Reaches s t → TableInv t

/-- Equal memories are equal data: two canonical memories whose segments agree under every id are the
same (log entry 1: the form is the model's). -/
def Obligations.CanonicalMemoryIsDeterminedByItsSegments : Prop :=
  ∀ s t : State, Memory.wf s.seg → Memory.wf t.seg → (∀ id, s.segWords id = t.segWords id) →
    s.seg = t.seg

/-- R27: the pc never wraps when it advances. -/
def Obligations.AdvancingPcNeverWraps : Prop :=
  ∀ s t : State, s.Inv → step s = .next t → t.pc = s.pc + 1#32 → t.pc.toNat = s.pc.toNat + 1

/-- R40: no step changes the length of a live segment other than segment 0, and only a LoadProgram
changes that of segment 0. -/
def Obligations.SegmentLengthsAreFixed : Prop :=
  ∀ (s t : State) (id : Word) (ws ws' : List Word), s.Inv → step s = .next t →
    s.segWords id = some ws → t.segWords id = some ws' →
    (id ≠ 0#32 ∨ ∀ b c, fetchInstr s ≠ .ok (.loadp b c)) → ws'.length = ws.length

/-- R94: a step writes at most the one register, the one segment (for a store, the one word) and the one
byte that its instruction names, each computed from the state before the step; a step that fetches no
instruction writes none. Only map and unmap touch the ids, and the parameter never changes. That the
operands are read first is decision D24 (log entry 16); that a faulting step moves no byte is D9 (log
entry 13); which id a map takes when the id space is full is none, decision D7 (log entry 12). -/
def Obligations.StepEffectsAreLimited : Prop :=
  ∀ s t : State, step s = .next t →
    t.capacityWords = s.capacityWords ∧
    (∀ k, fetchInstr s = .error k → KeepsRegs s t ∧ KeepsSegments s t ∧ KeepsStreams s t) ∧
    ∀ i, fetchInstr s = .ok i →
      (∀ r, writtenReg i ≠ some r → t.reg r = s.reg r) ∧
      (∀ id, writtenSegment i s ≠ some id →
        t.segWords id = s.segWords id ∧ ∀ off, memRead id off t = memRead id off s) ∧
      (∀ a b c, i = .sstore a b c →
        ∀ off, off ≠ s.reg b → memRead (s.reg a) off t = memRead (s.reg a) off s) ∧
      ((∀ b c, i ≠ .map b c) → (∀ c, i ≠ .unmap c) → KeepsIds s t) ∧
      t.out = s.out ++ emittedBytes i s ∧ t.inp = s.inp.drop (consumedBytes i)

/-! ## Reset, launch and the end of a run -/

/-- R22: every register holds 0 at reset, and at the start of every launch. -/
def Obligations.RegistersAreZeroAtStartup : Prop :=
  (∀ r, State.reset.reg r = 0#32) ∧
  ∀ (capacity : Option Nat) (image input : List Byte) (s : State),
    launch capacity image input = some s → ∀ r, s.reg r = 0#32

/-- The rest of the state after reset (pc, `next_id` and the pool are decision D21, log entry 10; the
empty image and input are log entry 3). -/
def Obligations.ResetStateIsTheInitialState : Prop :=
  State.reset.pc = 0#32 ∧ State.reset.segWords 0#32 = some [] ∧
  (∀ id, id ≠ 0#32 → State.reset.segWords id = none) ∧ State.reset.nextId = 1 ∧
  State.reset.free = [] ∧ State.reset.runState = .running ∧ State.reset.fault = none ∧
  State.reset.out = [] ∧ State.reset.inp = [] ∧ State.reset.refused = none

/-- R181: the image's bytes, four at a time and most significant first, are the words of segment 0. -/
def Obligations.ImageIsReadAsBigEndianWords : Prop :=
  ∀ (capacity : Option Nat) (image input : List Byte) (n : Nat), image.length = 4 * n →
    n ≤ 2 ^ 32 - 1 →
    ∃ s ws, launch capacity image input = some s ∧ s.segWords 0#32 = some ws ∧ ws.length = n ∧
      ∀ (k : Nat) (b0 b1 b2 b3 : Byte), image[4 * k]? = some b0 → image[4 * k + 1]? = some b1 →
        image[4 * k + 2]? = some b2 → image[4 * k + 3]? = some b3 →
        ∃ w, ws[k]? = some w ∧
          w.toNat = b0.toNat * 2 ^ 24 + b1.toNat * 2 ^ 16 + b2.toNat * 2 ^ 8 + b3.toNat

/-- R182 (the limit on the length is decision D6, log entry 11): which images are load-time errors,
and that the empty image faults at its first fetch. -/
def Obligations.BadImagesAreRejectedAtLoad : Prop :=
  ∀ (capacity : Option Nat) (image input : List Byte),
    (launch capacity image input = none ↔
      image.length % 4 ≠ 0 ∨ 2 ^ 32 - 1 < image.length / 4) ∧
    ∀ s, image = [] → launch capacity image input = some s →
      ∃ t, step s = .next t ∧ t.fault = some ⟨.invalidInstruction, 0#32⟩

/-- R180 for a launch (pc, table and pool are decision D21, log entry 10). -/
def Obligations.LaunchTakesTheInitialState : Prop :=
  ∀ (capacity : Option Nat) (image input : List Byte) (s : State),
    launch capacity image input = some s →
    s.pc = 0#32 ∧ s.live 0#32 = true ∧ (∀ id, id ≠ 0#32 → s.live id = false) ∧ s.nextId = 1 ∧
    s.free = [] ∧ s.runState = .running ∧ s.fault = none ∧ s.out = [] ∧ s.inp = input ∧
    s.refused = none ∧ s.capacityWords = capacity ∧ s.Inv

/-- R155 and R166 in the codes of decision D10 and the exit status of D12 (log entry 14): what the host
reads after a fault and after a Halt. -/
def Obligations.ReportGivesStatusFaultAndBytes : Prop :=
  ∀ s : State, s.refused = none →
    (∀ k p, s.runState = .faulted → s.fault = some ⟨k, p⟩ →
      s.report = some ⟨2, faultCode k, some p, s.out⟩) ∧
    (s.runState = .halted → s.fault = none → s.report = some ⟨1, 0#3, none, s.out⟩) ∧
    (s.runState = .running → s.report = none) ∧
    (s.runState = .halted → s.exitStatus = some 0) ∧
    (s.runState = .faulted → ∃ n, n ≠ 0 ∧ s.exitStatus = some n) ∧
    faultCode .divideByZero = 1#3 ∧ faultCode .invalidAccess = 2#3 ∧
    faultCode .invalidOutput = 3#3 ∧ faultCode .invalidInstruction = 4#3
end

