-- ==== Sys2Proof/Laws/Encoding.lean ====
section
/-!
SUPPORT. The fields of the words the encoder makes (30_encoding.md R72, R73, R80).
-/

namespace Sys2Proof

/-- Bit `i` of a register field placed at bit `n` of a word. -/
theorem getLsbD_regBits (r : RegIdx) (n i : Nat) (h : i < 32) :
    (BitVec.ofNat 32 r.val <<< n).getLsbD i = (decide (n ≤ i) && r.val.testBit (i - n)) := by
  rw [BitVec.getLsbD_shiftLeft, BitVec.getLsbD_ofNat]
  by_cases hn : n ≤ i
  · simp [h, hn, show ¬i < n by omega, show i - n < 32 by omega]
  · simp [hn, show i < n by omega]

/-- A register field has three bits. -/
theorem regIdx_testBit (r : RegIdx) (i : Nat) (h : 3 ≤ i) : r.val.testBit i = false :=
  Nat.testBit_lt_two_pow (lt_of_lt_of_le r.isLt (by simpa using Nat.pow_le_pow_right (n := 2) (by omega) h))

/-- The bits of a three-register word. -/
theorem getLsbD_enc3 (op : BitVec 4) (a b c : RegIdx) (i : Nat) (h : i < 32) :
    (enc3 op a b c).getLsbD i =
      ((decide (28 ≤ i) && op.getLsbD (i - 28)) || (decide (6 ≤ i) && a.val.testBit (i - 6))
        || (decide (3 ≤ i) && b.val.testBit (i - 3)) || c.val.testBit i) := by
  have hc := getLsbD_regBits c 0 i h
  simp only [BitVec.shiftLeft_zero, Nat.zero_le, decide_true, Bool.true_and, Nat.sub_zero] at hc
  have ho : (op.setWidth 32 <<< 28).getLsbD i = (decide (28 ≤ i) && op.getLsbD (i - 28)) := by
    rw [BitVec.getLsbD_shiftLeft, BitVec.getLsbD_setWidth]
    by_cases hn : 28 ≤ i
    · simp [h, hn, show ¬i < 28 by omega, show i - 28 < 32 by omega]
    · simp [hn, show i < 28 by omega]
  simp only [enc3, BitVec.getLsbD_or, getLsbD_regBits _ _ _ h, hc, ho]

/-- The bits of a load-immediate word. -/
theorem getLsbD_encI (a : RegIdx) (imm : BitVec 25) (i : Nat) (h : i < 32) :
    (encI a imm).getLsbD i =
      ((decide (28 ≤ i) && (13#4).getLsbD (i - 28)) || (decide (25 ≤ i) && a.val.testBit (i - 25))
        || imm.getLsbD i) := by
  have ho : (13#32 <<< 28).getLsbD i = (decide (28 ≤ i) && (13#4).getLsbD (i - 28)) := by
    have : ∀ j : Fin 32, (13#32 <<< 28).getLsbD j.val =
        (decide (28 ≤ j.val) && (13#4).getLsbD (j.val - 28)) := by decide
    exact this ⟨i, h⟩
  simp only [encI, BitVec.getLsbD_or, getLsbD_regBits _ _ _ h, ho, BitVec.getLsbD_setWidth, h,
    decide_true, Bool.true_and]

/-- The three bits of a word that hold a register index, from the bits one by one. -/
theorem field_eq_reg {w : Word} {n : Nat} {r : RegIdx}
    (h : ∀ i, i < 3 → w.getLsbD (n + i) = r.val.testBit i) : (w.extractLsb' n 3).toFin = r := by
  apply Fin.ext
  change (w.extractLsb' n 3).toNat = r.val
  apply Nat.eq_of_testBit_eq
  intro i
  by_cases hi : i < 3
  · have := h i hi
    rw [← this, ← BitVec.getLsbD, BitVec.getLsbD_extractLsb']
    simp [hi]
  · rw [regIdx_testBit r i (by omega), ← BitVec.getLsbD, BitVec.getLsbD_extractLsb']
    simp [hi]

theorem opField_enc3 (op : BitVec 4) (a b c : RegIdx) : opField (enc3 op a b c) = op := by
  apply BitVec.eq_of_getLsbD_eq
  intro i hi
  rw [opField, BitVec.getLsbD_extractLsb', getLsbD_enc3 _ _ _ _ _ (by omega),
    regIdx_testBit a _ (by omega), regIdx_testBit b _ (by omega), regIdx_testBit c _ (by omega)]
  simp [hi]

theorem aField_enc3 (op : BitVec 4) (a b c : RegIdx) : aField (enc3 op a b c) = a := by
  refine field_eq_reg fun i hi => ?_
  rw [getLsbD_enc3 _ _ _ _ _ (by omega), regIdx_testBit b _ (by omega),
    regIdx_testBit c _ (by omega)]
  simp [show ¬28 ≤ 6 + i by omega]

theorem bField_enc3 (op : BitVec 4) (a b c : RegIdx) : bField (enc3 op a b c) = b := by
  refine field_eq_reg fun i hi => ?_
  rw [getLsbD_enc3 _ _ _ _ _ (by omega), regIdx_testBit c _ (by omega)]
  simp [show ¬28 ≤ 3 + i by omega, show ¬6 ≤ 3 + i by omega]

theorem cField_enc3 (op : BitVec 4) (a b c : RegIdx) : cField (enc3 op a b c) = c := by
  refine field_eq_reg fun i hi => ?_
  rw [getLsbD_enc3 _ _ _ _ _ (by omega)]
  simp; omega

theorem opField_encI (a : RegIdx) (imm : BitVec 25) : opField (encI a imm) = 13#4 := by
  apply BitVec.eq_of_getLsbD_eq
  intro i hi
  rw [opField, BitVec.getLsbD_extractLsb', getLsbD_encI _ _ _ (by omega),
    regIdx_testBit a _ (by omega), BitVec.getLsbD_of_ge imm _ (by omega)]
  simp [hi]

theorem aImmField_encI (a : RegIdx) (imm : BitVec 25) : aImmField (encI a imm) = a := by
  refine field_eq_reg fun i hi => ?_
  rw [getLsbD_encI _ _ _ (by omega), BitVec.getLsbD_of_ge imm _ (by omega)]
  simp [show ¬28 ≤ 25 + i by omega]

theorem immField_encI (a : RegIdx) (imm : BitVec 25) : immField (encI a imm) = imm := by
  apply BitVec.eq_of_getLsbD_eq
  intro i hi
  rw [immField, BitVec.getLsbD_extractLsb', getLsbD_encI _ _ _ (by omega)]
  simp [hi]; omega

end Sys2Proof
end

