-- ==== Sys2Proof/Laws/State.lean ====
section
/-!
SUPPORT. One lemma per field of State and per update, each true by unfolding, so that no later proof
unfolds a record update; then what reading a register or a segment sees after each update.
-/

namespace Sys2Proof.Machine

variable (s : State)


/-! ## State.setReg -/

@[simp] theorem setReg_x (i : RegIdx) (v : Word) : (s.setReg i v).x = s.x.set i.val v := rfl
@[simp] theorem setReg_pc (i : RegIdx) (v : Word) : (s.setReg i v).pc = s.pc := rfl
@[simp] theorem setReg_seg (i : RegIdx) (v : Word) : (s.setReg i v).seg = s.seg := rfl
@[simp] theorem setReg_nextId (i : RegIdx) (v : Word) : (s.setReg i v).nextId = s.nextId := rfl
@[simp] theorem setReg_free (i : RegIdx) (v : Word) : (s.setReg i v).free = s.free := rfl
@[simp] theorem setReg_runState (i : RegIdx) (v : Word) : (s.setReg i v).runState = s.runState := rfl
@[simp] theorem setReg_fault (i : RegIdx) (v : Word) : (s.setReg i v).fault = s.fault := rfl
@[simp] theorem setReg_out (i : RegIdx) (v : Word) : (s.setReg i v).out = s.out := rfl
@[simp] theorem setReg_inp (i : RegIdx) (v : Word) : (s.setReg i v).inp = s.inp := rfl
@[simp] theorem setReg_refused (i : RegIdx) (v : Word) : (s.setReg i v).refused = s.refused := rfl
@[simp] theorem setReg_capacityWords (i : RegIdx) (v : Word) : (s.setReg i v).capacityWords = s.capacityWords := rfl

/-! ## State.advance -/

@[simp] theorem advance_x : (s.advance).x = s.x := rfl
@[simp] theorem advance_pc : (s.advance).pc = s.pc + 1#32 := rfl
@[simp] theorem advance_seg : (s.advance).seg = s.seg := rfl
@[simp] theorem advance_nextId : (s.advance).nextId = s.nextId := rfl
@[simp] theorem advance_free : (s.advance).free = s.free := rfl
@[simp] theorem advance_runState : (s.advance).runState = s.runState := rfl
@[simp] theorem advance_fault : (s.advance).fault = s.fault := rfl
@[simp] theorem advance_out : (s.advance).out = s.out := rfl
@[simp] theorem advance_inp : (s.advance).inp = s.inp := rfl
@[simp] theorem advance_refused : (s.advance).refused = s.refused := rfl
@[simp] theorem advance_capacityWords : (s.advance).capacityWords = s.capacityWords := rfl

/-! ## State.jump -/

@[simp] theorem jump_x (target : Word) : (s.jump target).x = s.x := rfl
@[simp] theorem jump_pc (target : Word) : (s.jump target).pc = target := rfl
@[simp] theorem jump_seg (target : Word) : (s.jump target).seg = s.seg := rfl
@[simp] theorem jump_nextId (target : Word) : (s.jump target).nextId = s.nextId := rfl
@[simp] theorem jump_free (target : Word) : (s.jump target).free = s.free := rfl
@[simp] theorem jump_runState (target : Word) : (s.jump target).runState = s.runState := rfl
@[simp] theorem jump_fault (target : Word) : (s.jump target).fault = s.fault := rfl
@[simp] theorem jump_out (target : Word) : (s.jump target).out = s.out := rfl
@[simp] theorem jump_inp (target : Word) : (s.jump target).inp = s.inp := rfl
@[simp] theorem jump_refused (target : Word) : (s.jump target).refused = s.refused := rfl
@[simp] theorem jump_capacityWords (target : Word) : (s.jump target).capacityWords = s.capacityWords := rfl

/-! ## State.raise -/

@[simp] theorem raise_x (k : FaultKind) : (s.raise k).x = s.x := rfl
@[simp] theorem raise_pc (k : FaultKind) : (s.raise k).pc = s.pc := rfl
@[simp] theorem raise_seg (k : FaultKind) : (s.raise k).seg = s.seg := rfl
@[simp] theorem raise_nextId (k : FaultKind) : (s.raise k).nextId = s.nextId := rfl
@[simp] theorem raise_free (k : FaultKind) : (s.raise k).free = s.free := rfl
@[simp] theorem raise_runState (k : FaultKind) : (s.raise k).runState = .faulted := rfl
@[simp] theorem raise_fault (k : FaultKind) : (s.raise k).fault = some ⟨k, s.pc⟩ := rfl
@[simp] theorem raise_out (k : FaultKind) : (s.raise k).out = s.out := rfl
@[simp] theorem raise_inp (k : FaultKind) : (s.raise k).inp = s.inp := rfl
@[simp] theorem raise_refused (k : FaultKind) : (s.raise k).refused = s.refused := rfl
@[simp] theorem raise_capacityWords (k : FaultKind) : (s.raise k).capacityWords = s.capacityWords := rfl

/-! ## State.halt -/

@[simp] theorem halt_x : (s.halt).x = s.x := rfl
@[simp] theorem halt_pc : (s.halt).pc = s.pc := rfl
@[simp] theorem halt_seg : (s.halt).seg = s.seg := rfl
@[simp] theorem halt_nextId : (s.halt).nextId = s.nextId := rfl
@[simp] theorem halt_free : (s.halt).free = s.free := rfl
@[simp] theorem halt_runState : (s.halt).runState = .halted := rfl
@[simp] theorem halt_fault : (s.halt).fault = s.fault := rfl
@[simp] theorem halt_out : (s.halt).out = s.out := rfl
@[simp] theorem halt_inp : (s.halt).inp = s.inp := rfl
@[simp] theorem halt_refused : (s.halt).refused = s.refused := rfl
@[simp] theorem halt_capacityWords : (s.halt).capacityWords = s.capacityWords := rfl

/-! ## State.refuse -/

@[simp] theorem refuse_x (m : RefusalMark) : (s.refuse m).x = s.x := rfl
@[simp] theorem refuse_pc (m : RefusalMark) : (s.refuse m).pc = s.pc := rfl
@[simp] theorem refuse_seg (m : RefusalMark) : (s.refuse m).seg = s.seg := rfl
@[simp] theorem refuse_nextId (m : RefusalMark) : (s.refuse m).nextId = s.nextId := rfl
@[simp] theorem refuse_free (m : RefusalMark) : (s.refuse m).free = s.free := rfl
@[simp] theorem refuse_runState (m : RefusalMark) : (s.refuse m).runState = s.runState := rfl
@[simp] theorem refuse_fault (m : RefusalMark) : (s.refuse m).fault = s.fault := rfl
@[simp] theorem refuse_out (m : RefusalMark) : (s.refuse m).out = s.out := rfl
@[simp] theorem refuse_inp (m : RefusalMark) : (s.refuse m).inp = s.inp := rfl
@[simp] theorem refuse_refused (m : RefusalMark) : (s.refuse m).refused = some m := rfl
@[simp] theorem refuse_capacityWords (m : RefusalMark) : (s.refuse m).capacityWords = s.capacityWords := rfl

/-! ## State.setSegment -/

@[simp] theorem setSegment_x (id : Word) (g : Segment) : (s.setSegment id g).x = s.x := rfl
@[simp] theorem setSegment_pc (id : Word) (g : Segment) : (s.setSegment id g).pc = s.pc := rfl
@[simp] theorem setSegment_seg (id : Word) (g : Segment) : (s.setSegment id g).seg = tableInsert id.toNat g s.seg := rfl
@[simp] theorem setSegment_nextId (id : Word) (g : Segment) : (s.setSegment id g).nextId = s.nextId := rfl
@[simp] theorem setSegment_free (id : Word) (g : Segment) : (s.setSegment id g).free = s.free := rfl
@[simp] theorem setSegment_runState (id : Word) (g : Segment) : (s.setSegment id g).runState = s.runState := rfl
@[simp] theorem setSegment_fault (id : Word) (g : Segment) : (s.setSegment id g).fault = s.fault := rfl
@[simp] theorem setSegment_out (id : Word) (g : Segment) : (s.setSegment id g).out = s.out := rfl
@[simp] theorem setSegment_inp (id : Word) (g : Segment) : (s.setSegment id g).inp = s.inp := rfl
@[simp] theorem setSegment_refused (id : Word) (g : Segment) : (s.setSegment id g).refused = s.refused := rfl
@[simp] theorem setSegment_capacityWords (id : Word) (g : Segment) : (s.setSegment id g).capacityWords = s.capacityWords := rfl

/-! ## State.dropSegment -/

@[simp] theorem dropSegment_x (id : Word) : (s.dropSegment id).x = s.x := rfl
@[simp] theorem dropSegment_pc (id : Word) : (s.dropSegment id).pc = s.pc := rfl
@[simp] theorem dropSegment_seg (id : Word) : (s.dropSegment id).seg = tableErase id.toNat s.seg := rfl
@[simp] theorem dropSegment_nextId (id : Word) : (s.dropSegment id).nextId = s.nextId := rfl
@[simp] theorem dropSegment_free (id : Word) : (s.dropSegment id).free = s.free := rfl
@[simp] theorem dropSegment_runState (id : Word) : (s.dropSegment id).runState = s.runState := rfl
@[simp] theorem dropSegment_fault (id : Word) : (s.dropSegment id).fault = s.fault := rfl
@[simp] theorem dropSegment_out (id : Word) : (s.dropSegment id).out = s.out := rfl
@[simp] theorem dropSegment_inp (id : Word) : (s.dropSegment id).inp = s.inp := rfl
@[simp] theorem dropSegment_refused (id : Word) : (s.dropSegment id).refused = s.refused := rfl
@[simp] theorem dropSegment_capacityWords (id : Word) : (s.dropSegment id).capacityWords = s.capacityWords := rfl

/-! ## State.setFree -/

@[simp] theorem setFree_x (ids : List Word) : (s.setFree ids).x = s.x := rfl
@[simp] theorem setFree_pc (ids : List Word) : (s.setFree ids).pc = s.pc := rfl
@[simp] theorem setFree_seg (ids : List Word) : (s.setFree ids).seg = s.seg := rfl
@[simp] theorem setFree_nextId (ids : List Word) : (s.setFree ids).nextId = s.nextId := rfl
@[simp] theorem setFree_free (ids : List Word) : (s.setFree ids).free = ids := rfl
@[simp] theorem setFree_runState (ids : List Word) : (s.setFree ids).runState = s.runState := rfl
@[simp] theorem setFree_fault (ids : List Word) : (s.setFree ids).fault = s.fault := rfl
@[simp] theorem setFree_out (ids : List Word) : (s.setFree ids).out = s.out := rfl
@[simp] theorem setFree_inp (ids : List Word) : (s.setFree ids).inp = s.inp := rfl
@[simp] theorem setFree_refused (ids : List Word) : (s.setFree ids).refused = s.refused := rfl
@[simp] theorem setFree_capacityWords (ids : List Word) : (s.setFree ids).capacityWords = s.capacityWords := rfl

/-! ## State.setNextId -/

@[simp] theorem setNextId_x (n : Nat) : (s.setNextId n).x = s.x := rfl
@[simp] theorem setNextId_pc (n : Nat) : (s.setNextId n).pc = s.pc := rfl
@[simp] theorem setNextId_seg (n : Nat) : (s.setNextId n).seg = s.seg := rfl
@[simp] theorem setNextId_nextId (n : Nat) : (s.setNextId n).nextId = n := rfl
@[simp] theorem setNextId_free (n : Nat) : (s.setNextId n).free = s.free := rfl
@[simp] theorem setNextId_runState (n : Nat) : (s.setNextId n).runState = s.runState := rfl
@[simp] theorem setNextId_fault (n : Nat) : (s.setNextId n).fault = s.fault := rfl
@[simp] theorem setNextId_out (n : Nat) : (s.setNextId n).out = s.out := rfl
@[simp] theorem setNextId_inp (n : Nat) : (s.setNextId n).inp = s.inp := rfl
@[simp] theorem setNextId_refused (n : Nat) : (s.setNextId n).refused = s.refused := rfl
@[simp] theorem setNextId_capacityWords (n : Nat) : (s.setNextId n).capacityWords = s.capacityWords := rfl

/-! ## State.emit -/

@[simp] theorem emit_x (b : Byte) : (s.emit b).x = s.x := rfl
@[simp] theorem emit_pc (b : Byte) : (s.emit b).pc = s.pc := rfl
@[simp] theorem emit_seg (b : Byte) : (s.emit b).seg = s.seg := rfl
@[simp] theorem emit_nextId (b : Byte) : (s.emit b).nextId = s.nextId := rfl
@[simp] theorem emit_free (b : Byte) : (s.emit b).free = s.free := rfl
@[simp] theorem emit_runState (b : Byte) : (s.emit b).runState = s.runState := rfl
@[simp] theorem emit_fault (b : Byte) : (s.emit b).fault = s.fault := rfl
@[simp] theorem emit_out (b : Byte) : (s.emit b).out = s.out ++ [b] := rfl
@[simp] theorem emit_inp (b : Byte) : (s.emit b).inp = s.inp := rfl
@[simp] theorem emit_refused (b : Byte) : (s.emit b).refused = s.refused := rfl
@[simp] theorem emit_capacityWords (b : Byte) : (s.emit b).capacityWords = s.capacityWords := rfl

/-! ## State.setInp -/

@[simp] theorem setInp_x (bytes : List Byte) : (s.setInp bytes).x = s.x := rfl
@[simp] theorem setInp_pc (bytes : List Byte) : (s.setInp bytes).pc = s.pc := rfl
@[simp] theorem setInp_seg (bytes : List Byte) : (s.setInp bytes).seg = s.seg := rfl
@[simp] theorem setInp_nextId (bytes : List Byte) : (s.setInp bytes).nextId = s.nextId := rfl
@[simp] theorem setInp_free (bytes : List Byte) : (s.setInp bytes).free = s.free := rfl
@[simp] theorem setInp_runState (bytes : List Byte) : (s.setInp bytes).runState = s.runState := rfl
@[simp] theorem setInp_fault (bytes : List Byte) : (s.setInp bytes).fault = s.fault := rfl
@[simp] theorem setInp_out (bytes : List Byte) : (s.setInp bytes).out = s.out := rfl
@[simp] theorem setInp_inp (bytes : List Byte) : (s.setInp bytes).inp = bytes := rfl
@[simp] theorem setInp_refused (bytes : List Byte) : (s.setInp bytes).refused = s.refused := rfl
@[simp] theorem setInp_capacityWords (bytes : List Byte) : (s.setInp bytes).capacityWords = s.capacityWords := rfl

/-! ## Reading a register -/

/-- A register after a register write (R21). -/
theorem reg_setReg (i j : RegIdx) (v : Word) :
    (s.setReg i v).reg j = if j = i then v else s.reg j := by
  unfold State.reg State.setReg
  simp only [Vector.getElem_set]
  by_cases h : i = j
  · simp [h]
  · rw [if_neg (fun e => h (Fin.ext e)), if_neg (fun e => h e.symm)]

@[simp] theorem reg_setReg_same (i : RegIdx) (v : Word) : (s.setReg i v).reg i = v := by
  simp [reg_setReg]

theorem reg_setReg_other (i j : RegIdx) (v : Word) (h : j ≠ i) : (s.setReg i v).reg j = s.reg j := by
  simp [reg_setReg, h]

@[simp] theorem reg_advance (j : RegIdx) : (s.advance).reg j = s.reg j := rfl
@[simp] theorem reg_jump (target : Word) (j : RegIdx) : (s.jump target).reg j = s.reg j := rfl
@[simp] theorem reg_raise (k : FaultKind) (j : RegIdx) : (s.raise k).reg j = s.reg j := rfl
@[simp] theorem reg_halt (j : RegIdx) : (s.halt).reg j = s.reg j := rfl
@[simp] theorem reg_refuse (m : RefusalMark) (j : RegIdx) : (s.refuse m).reg j = s.reg j := rfl
@[simp] theorem reg_setSegment (id : Word) (g : Segment) (j : RegIdx) : (s.setSegment id g).reg j = s.reg j := rfl
@[simp] theorem reg_dropSegment (id : Word) (j : RegIdx) : (s.dropSegment id).reg j = s.reg j := rfl
@[simp] theorem reg_setFree (ids : List Word) (j : RegIdx) : (s.setFree ids).reg j = s.reg j := rfl
@[simp] theorem reg_setNextId (n : Nat) (j : RegIdx) : (s.setNextId n).reg j = s.reg j := rfl
@[simp] theorem reg_emit (b : Byte) (j : RegIdx) : (s.emit b).reg j = s.reg j := rfl
@[simp] theorem reg_setInp (bytes : List Byte) (j : RegIdx) : (s.setInp bytes).reg j = s.reg j := rfl

/-! ## Reading a segment -/

@[simp] theorem segment_setReg (i : RegIdx) (v : Word) (id' : Word) : (s.setReg i v).segment id' = s.segment id' := rfl
@[simp] theorem segment_advance (id' : Word) : (s.advance).segment id' = s.segment id' := rfl
@[simp] theorem segment_jump (target : Word) (id' : Word) : (s.jump target).segment id' = s.segment id' := rfl
@[simp] theorem segment_raise (k : FaultKind) (id' : Word) : (s.raise k).segment id' = s.segment id' := rfl
@[simp] theorem segment_halt (id' : Word) : (s.halt).segment id' = s.segment id' := rfl
@[simp] theorem segment_refuse (m : RefusalMark) (id' : Word) : (s.refuse m).segment id' = s.segment id' := rfl
@[simp] theorem segment_setFree (ids : List Word) (id' : Word) : (s.setFree ids).segment id' = s.segment id' := rfl
@[simp] theorem segment_setNextId (n : Nat) (id' : Word) : (s.setNextId n).segment id' = s.segment id' := rfl
@[simp] theorem segment_emit (b : Byte) (id' : Word) : (s.emit b).segment id' = s.segment id' := rfl
@[simp] theorem segment_setInp (bytes : List Byte) (id' : Word) : (s.setInp bytes).segment id' = s.segment id' := rfl

end Sys2Proof.Machine
end

