-- ==== Sys2Proof/Laws/Table.lean ====
section
/-!
SUPPORT. The laws of the sorted lists, and of segments as lists of words: what a find sees after an
insert or an erase, and that the canonical form is kept.
-/

namespace Sys2Proof.Machine

/-! ## Find after insert and erase -/

section Lists

variable {α : Type}

@[simp] theorem tableFind_nil (k : Nat) : tableFind k ([] : List (Nat × α)) = none := rfl

/-- An insert is seen under its key and nowhere else, whatever the list's order. -/
theorem tableFind_insert (k j : Nat) (v : α) (t : List (Nat × α)) :
    tableFind j (tableInsert k v t) = if j = k then some v else tableFind j t := by
  induction t with
  | nil => simp [tableInsert, tableFind]
  | cons e rest ih =>
    obtain ⟨i, u⟩ := e
    simp only [tableInsert]
    split
    · simp [tableFind]
    · split
      · subst k; by_cases h : j = i <;> simp [tableFind, h]
      · simp only [tableFind, ih]
        by_cases h : j = i
        · subst h; simp [Ne.symm (by assumption : ¬k = j)]
        · simp [h]

/-- An erased key is gone, and nothing else changes, whatever the list's order. -/
theorem tableFind_erase (k j : Nat) (t : List (Nat × α)) :
    tableFind j (tableErase k t) = if j = k then none else tableFind j t := by
  induction t with
  | nil => simp [tableErase]
  | cons e rest ih =>
    obtain ⟨i, u⟩ := e
    simp only [tableErase]
    split
    · subst k; rw [ih]; by_cases h : j = i <;> simp [tableFind, h]
    · simp only [tableFind, ih]
      by_cases h : j = i
      · subst h; simp [Ne.symm (by assumption : ¬k = j)]
      · simp [h]

/-- What a find answers is listed. -/
theorem mem_of_tableFind {k : Nat} {v : α} {t : List (Nat × α)} (h : tableFind k t = some v) :
    (k, v) ∈ t := by
  induction t with
  | nil => simp at h
  | cons e rest ih =>
    obtain ⟨j, u⟩ := e
    simp only [tableFind] at h
    split at h
    · simp_all
    · exact List.mem_cons_of_mem _ (ih h)

/-- In a sorted list, what is listed is what a find answers. -/
theorem tableFind_of_mem {k : Nat} {v : α} {t : List (Nat × α)} (hs : TableSorted t)
    (h : (k, v) ∈ t) : tableFind k t = some v := by
  induction t with
  | nil => simp at h
  | cons e rest ih =>
    obtain ⟨j, u⟩ := e
    have ⟨hj, hrest⟩ := List.pairwise_cons.mp hs
    rcases List.mem_cons.mp h with h | h
    · simp_all [tableFind]
    · have : j < k := hj _ h
      simp [tableFind, show k ≠ j by omega, ih hrest h]

/-! ## The canonical order is kept -/

/-- The entries after an insert: the new one, and old ones. -/
theorem mem_tableInsert {k : Nat} {v : α} {t : List (Nat × α)} {e : Nat × α}
    (h : e ∈ tableInsert k v t) : e = (k, v) ∨ e ∈ t := by
  induction t with
  | nil => simpa [tableInsert] using h
  | cons f rest ih =>
    obtain ⟨j, u⟩ := f
    simp only [tableInsert] at h
    split at h
    · simpa using h
    · split at h
      · rcases List.mem_cons.mp h with h | h <;> simp [h]
      · rcases List.mem_cons.mp h with h | h
        · simp [h]
        · rcases ih h with h | h <;> simp [h]

/-- The entries after an erase: old ones. -/
theorem mem_tableErase {k : Nat} {t : List (Nat × α)} {e : Nat × α} (h : e ∈ tableErase k t) :
    e ∈ t := by
  induction t with
  | nil => simp [tableErase] at h
  | cons f rest ih =>
    obtain ⟨j, u⟩ := f
    simp only [tableErase] at h
    split at h
    · exact List.mem_cons_of_mem _ (ih h)
    · rcases List.mem_cons.mp h with h | h
      · simp [h]
      · exact List.mem_cons_of_mem _ (ih h)

theorem tableInsert_sorted {k : Nat} {v : α} {t : List (Nat × α)} (hs : TableSorted t) :
    TableSorted (tableInsert k v t) := by
  induction t with
  | nil => simp [tableInsert]
  | cons f rest ih =>
    obtain ⟨j, u⟩ := f
    have ⟨hj, hrest⟩ := List.pairwise_cons.mp hs
    simp only [tableInsert]
    split
    · refine List.pairwise_cons.mpr ⟨fun e he => ?_, hs⟩
      rcases List.mem_cons.mp he with he | he
      · simp_all
      · have := hj e he; simp only at this ⊢; omega
    · split
      · subst k; exact List.pairwise_cons.mpr ⟨hj, hrest⟩
      · refine List.pairwise_cons.mpr ⟨fun e he => ?_, ih hrest⟩
        rcases mem_tableInsert he with he | he
        · subst he; simp only; omega
        · exact hj e he

theorem tableErase_sorted {k : Nat} {t : List (Nat × α)} (hs : TableSorted t) :
    TableSorted (tableErase k t) := by
  induction t with
  | nil => simp [tableErase]
  | cons f rest ih =>
    obtain ⟨j, u⟩ := f
    have ⟨hj, hrest⟩ := List.pairwise_cons.mp hs
    simp only [tableErase]
    split
    · exact ih hrest
    · exact List.pairwise_cons.mpr ⟨fun e he => hj e (mem_tableErase he), ih hrest⟩

end Lists

/-! ## Segments -/

@[simp] theorem zeroSegment_len (n : Nat) : (zeroSegment n).len = n := rfl

@[simp] theorem segmentPut_len (g : Segment) (off : Nat) (v : Word) : (segmentPut g off v).len = g.len :=
  rfl

@[simp] theorem segmentGet_zeroSegment (n off : Nat) : segmentGet (zeroSegment n) off = 0#32 := rfl

/-- A word after a write to the segment (R46). -/
theorem segmentGet_put (g : Segment) (off j : Nat) (v : Word) :
    segmentGet (segmentPut g off v) j = if j = off then v else segmentGet g j := by
  unfold segmentGet segmentPut
  by_cases hv : v = 0#32
  · simp only [hv, if_true, tableFind_erase]; split <;> simp
  · simp only [hv, if_false, tableFind_insert]; split <;> simp

@[simp] theorem segmentWords_length (g : Segment) : (segmentWords g).length = g.len := by
  simp [segmentWords]

theorem segmentWords_getElem (g : Segment) (off : Nat) (h : off < (segmentWords g).length) :
    (segmentWords g)[off] = segmentGet g off := by
  simp [segmentWords]

/-- A write to a segment is a write to its list of words. -/
theorem segmentWords_put (g : Segment) (off : Nat) (v : Word) :
    segmentWords (segmentPut g off v) = (segmentWords g).set off v := by
  apply List.ext_getElem (by simp)
  intro i h1 h2
  rw [segmentWords_getElem, segmentGet_put, List.getElem_set]
  by_cases h : i = off
  · simp [h]
  · simp [h, Ne.symm h, segmentWords_getElem]

@[simp] theorem segmentWords_zeroSegment (n : Nat) :
    segmentWords (zeroSegment n) = List.replicate n 0#32 := by
  apply List.ext_getElem (by simp)
  intro i h1 h2
  simp [segmentWords_getElem]

/-- The entries made from a list of words. -/
theorem tableFind_cellsFrom (ws : List Word) (k j : Nat) :
    (tableFind j (cellsFrom k ws)).getD 0#32 = if j < k then 0#32 else ws[j - k]?.getD 0#32 := by
  induction ws generalizing k with
  | nil => simp [cellsFrom]
  | cons w ws ih =>
    have hstep : (tableFind j (cellsFrom k (w :: ws))).getD 0#32 =
        if j = k then w else (tableFind j (cellsFrom (k + 1) ws)).getD 0#32 := by
      simp only [cellsFrom]
      split
      · by_cases h : j = k
        · subst h; rw [ih]; simp_all
        · simp [h]
      · simp only [tableFind]; split <;> simp
    rw [hstep, ih]
    by_cases h : j = k
    · simp [h]
    · by_cases h2 : j < k
      · simp [h, h2, show j < k + 1 by omega]
      · have : j - k = (j - (k + 1)) + 1 := by omega
        simp [h, h2, show ¬j < k + 1 by omega, this]

/-- The segment made from a list of words holds that list. -/
@[simp] theorem segmentWords_segmentOfWords (ws : List Word) : segmentWords (segmentOfWords ws) = ws := by
  apply List.ext_getElem (by simp [segmentOfWords])
  intro i h1 h2
  rw [segmentWords_getElem]
  simp [segmentGet, segmentOfWords, tableFind_cellsFrom, h2]

/-! ## The canonical form of segments is kept -/

theorem zeroSegment_wf (n : Nat) : (zeroSegment n).wf := by
  simp [zeroSegment, Segment.wf]

/-- R46: a write below the length keeps the canonical form. -/
theorem segmentPut_wf {g : Segment} {off : Nat} {v : Word} (hg : g.wf) (h : off < g.len) :
    (segmentPut g off v).wf := by
  obtain ⟨hs, hc⟩ := hg
  by_cases hv : v = 0#32
  · refine ⟨by simpa [segmentPut, hv] using tableErase_sorted hs, fun e he => ?_⟩
    simp only [segmentPut, hv, if_true] at he ⊢
    exact hc e (mem_tableErase he)
  · refine ⟨by simpa [segmentPut, hv] using tableInsert_sorted hs, fun e he => ?_⟩
    simp only [segmentPut, hv, if_false] at he ⊢
    rcases mem_tableInsert he with he | he
    · subst he; exact ⟨h, hv⟩
    · exact hc e he

theorem mem_cellsFrom {ws : List Word} {k : Nat} {e : Nat × Word} (h : e ∈ cellsFrom k ws) :
    k ≤ e.1 ∧ e.1 < k + ws.length ∧ e.2 ≠ 0#32 := by
  induction ws generalizing k with
  | nil => simp [cellsFrom] at h
  | cons w ws ih =>
    simp only [cellsFrom] at h
    split at h
    · have := ih h; simp only [List.length_cons]; exact ⟨by omega, by omega, this.2.2⟩
    · rcases List.mem_cons.mp h with h | h
      · subst h; simpa
      · have := ih h; simp only [List.length_cons]; exact ⟨by omega, by omega, this.2.2⟩

theorem cellsFrom_sorted (ws : List Word) (k : Nat) : TableSorted (cellsFrom k ws) := by
  induction ws generalizing k with
  | nil => simp [cellsFrom]
  | cons w ws ih =>
    simp only [cellsFrom]
    split
    · exact ih _
    · refine List.pairwise_cons.mpr ⟨fun e he => ?_, ih _⟩
      have := mem_cellsFrom he; simp only; omega

theorem segmentOfWords_wf (ws : List Word) : (segmentOfWords ws).wf := by
  refine ⟨cellsFrom_sorted ws 0, fun e he => ?_⟩
  have := mem_cellsFrom he
  exact ⟨by simp only [segmentOfWords]; omega, this.2.2⟩

/-! ## The canonical form of the table is kept -/

theorem tableInsert_memoryWf {m : Memory} {id : Nat} {g : Segment} (hm : Memory.wf m)
    (hid : id < Config.idLimit) (hg : g.wf) : Memory.wf (tableInsert id g m) := by
  refine ⟨tableInsert_sorted hm.1, fun e he => ?_⟩
  rcases mem_tableInsert he with he | he
  · subst he; exact ⟨hid, hg⟩
  · exact hm.2 e he

theorem tableErase_memoryWf {m : Memory} {id : Nat} (hm : Memory.wf m) :
    Memory.wf (tableErase id m) :=
  ⟨tableErase_sorted hm.1, fun e he => hm.2 e (mem_tableErase he)⟩

end Sys2Proof.Machine
end

