-- ==== Sys2Proof/Laws/Ops.lean ====
section
/-!
SUPPORT. For each shared operation, one lemma that says once everything it can do, and what a read of
a segment sees afterwards.
-/

namespace Sys2Proof.Machine

variable {s t : State}

/-! ## Segments by id -/

theorem toNat_eq_iff (v w : Word) : v.toNat = w.toNat ↔ v = w :=
  ⟨BitVec.eq_of_toNat_eq, fun h => h ▸ rfl⟩

/-- A segment after `seg[id] <- Some(g)`, in every state. -/
theorem segment_setSegment (s : State) (id j : Word) (g : Segment) :
    (s.setSegment id g).segment j = if j = id then some g else s.segment j := by
  simp [State.segment, tableFind_insert, toNat_eq_iff]

@[simp] theorem segment_setSegment_same (s : State) (id : Word) (g : Segment) :
    (s.setSegment id g).segment id = some g := by simp [segment_setSegment]

/-- A segment after `seg[id] <- None`, in every state. -/
theorem segment_dropSegment (s : State) (id j : Word) :
    (s.dropSegment id).segment j = if j = id then none else s.segment j := by
  simp [State.segment, tableFind_erase, toNat_eq_iff]

/-- Two states with the same segment under an id read the same there. -/
theorem memRead_congr {id : Word} (off : Word) (h : t.segment id = s.segment id) :
    memRead id off t = memRead id off s := by simp only [memRead, h]

theorem segWords_congr {id : Word} (h : t.segment id = s.segment id) :
    t.segWords id = s.segWords id := by simp only [State.segWords, h]

theorem live_congr {id : Word} (h : t.segment id = s.segment id) : t.live id = s.live id := by
  simp only [State.live, h]

theorem segWords_of_segment {id : Word} {g : Segment} (h : s.segment id = some g) :
    s.segWords id = some (segmentWords g) := by simp [State.segWords, h]

/-- A live id, as a list of words. -/
theorem segWords_eq_some {id : Word} {ws : List Word} :
    s.segWords id = some ws ↔ ∃ g, s.segment id = some g ∧ segmentWords g = ws := by
  simp [State.segWords]

/-- An id that is not live (R42). -/
theorem segWords_eq_none {id : Word} : s.segWords id = none ↔ s.segment id = none := by
  simp [State.segWords]

theorem live_iff {id : Word} : s.live id = true ↔ ∃ g, s.segment id = some g := by
  simp [State.live, Option.isSome_iff_exists]

theorem live_eq_false {id : Word} : s.live id = false ↔ s.segment id = none := by
  simp [State.live]

/-! ## The five operations -/

/-- R45: what MemRead can do. -/
theorem memRead_ok {id off v : Word} (h : memRead id off s = .ok v) :
    ∃ g, s.segment id = some g ∧ off.toNat < g.len ∧ v = segmentGet g off.toNat := by
  unfold memRead at h
  split at h
  · cases h
  · split at h
    · cases h; exact ⟨_, by assumption, by assumption, rfl⟩
    · cases h

theorem memRead_error {id off : Word} {k : FaultKind} (h : memRead id off s = .error k) :
    k = .invalidAccess ∧ ∀ g, s.segment id = some g → g.len ≤ off.toNat := by
  unfold memRead at h
  split at h
  · cases h; simp_all
  · split at h
    · cases h
    · cases h; simp_all

/-- R46: what MemWrite can do. -/
theorem memWrite_ok {id off v : Word} (h : memWrite id off v s = .ok t) :
    ∃ g, s.segment id = some g ∧ off.toNat < g.len ∧
      t = s.setSegment id (segmentPut g off.toNat v) := by
  unfold memWrite at h
  split at h
  · cases h
  · split at h
    · cases h; exact ⟨_, by assumption, by assumption, rfl⟩
    · cases h

theorem memWrite_error {id off v : Word} {k : FaultKind} (h : memWrite id off v s = .error k) :
    k = .invalidAccess ∧ ∀ g, s.segment id = some g → g.len ≤ off.toNat := by
  unfold memWrite at h
  split at h
  · cases h; simp_all
  · split at h
    · cases h
    · cases h; simp_all

/-- R43: the two ways a new segment gets its id. -/
theorem takeId_some {id : Word} (h : takeId s = some (id, t)) :
    (s.free = id :: t.free ∧ t = s.setFree t.free) ∨
      (s.free = [] ∧ s.nextId < Config.idLimit ∧ id = BitVec.ofNat 32 s.nextId ∧
        t = s.setNextId (s.nextId + 1)) := by
  unfold takeId at h
  split at h
  · cases h; left; simp_all
  · split at h
    · cases h; right; simp_all
    · cases h

/-- R51: when there is no id. -/
theorem takeId_none : takeId s = none ↔ s.free = [] ∧ Config.idLimit ≤ s.nextId := by
  unfold takeId
  split <;> simp_all

/-- R43: what SegMap can do. -/
theorem segMap_ok {n id : Word} (h : segMap n s = .ok (id, t)) :
    ∃ u, takeId s = some (id, u) ∧ s.fits n = true ∧ t = u.setSegment id (zeroSegment n.toNat) := by
  unfold segMap at h
  split at h
  · cases h
  · split at h
    · cases h; exact ⟨_, by assumption, by assumption, rfl⟩
    · cases h

/-- R51, R52: when SegMap is refused. -/
theorem segMap_error {n : Word} {m : RefusalMark} (h : segMap n s = .error m) :
    (m = .idSpaceExhausted ∧ takeId s = none) ∨ (m = .capacityExhausted ∧ s.fits n = false) := by
  unfold segMap at h
  split at h
  · cases h; left; simp_all
  · split at h
    · cases h
    · cases h; right; simp_all

/-- R44: what SegUnmap can do. -/
theorem segUnmap_ok {id : Word} (h : segUnmap id s = .ok t) :
    id ≠ 0#32 ∧ s.live id = true ∧ t = (s.dropSegment id).setFree (id :: s.free) := by
  unfold segUnmap at h
  split at h
  · cases h
  · cases h; simp_all

theorem segUnmap_error {id : Word} {k : FaultKind} (h : segUnmap id s = .error k) :
    k = .invalidAccess ∧ (id = 0#32 ∨ s.live id = false) := by
  unfold segUnmap at h
  split at h
  · cases h; simp_all
  · cases h

/-- R47: what SegReplaceProgram can do. -/
theorem segReplaceProgram_ok {id : Word} (h : segReplaceProgram id s = .ok t) :
    ∃ g, s.segment id = some g ∧ ((id = 0#32 ∧ t = s) ∨ (id ≠ 0#32 ∧ t = s.setSegment 0#32 g)) := by
  unfold segReplaceProgram at h
  split at h
  · cases h
  · split at h
    · cases h; exact ⟨_, by assumption, .inl ⟨by assumption, rfl⟩⟩
    · cases h; exact ⟨_, by assumption, .inr ⟨by assumption, rfl⟩⟩

theorem segReplaceProgram_error {id : Word} {k : FaultKind}
    (h : segReplaceProgram id s = .error k) : k = .invalidAccess ∧ s.segment id = none := by
  unfold segReplaceProgram at h
  split at h
  · cases h; simp_all
  · split at h <;> cases h

/-! ## When each operation succeeds -/

theorem memRead_of_segment {id off : Word} {g : Segment} (hg : s.segment id = some g)
    (h : off.toNat < g.len) : memRead id off s = .ok (segmentGet g off.toNat) := by
  simp [memRead, hg, h]

theorem memWrite_of_segment {id off : Word} {g : Segment} (v : Word) (hg : s.segment id = some g)
    (h : off.toNat < g.len) :
    memWrite id off v s = .ok (s.setSegment id (segmentPut g off.toNat v)) := by
  simp [memWrite, hg, h]

theorem segUnmap_of_live {id : Word} (h0 : id ≠ 0#32) (h : s.live id = true) :
    segUnmap id s = .ok ((s.dropSegment id).setFree (id :: s.free)) := by
  simp [segUnmap, h0, h]

theorem segReplaceProgram_of_segment {id : Word} {g : Segment} (h0 : id ≠ 0#32)
    (hg : s.segment id = some g) : segReplaceProgram id s = .ok (s.setSegment 0#32 g) := by
  simp [segReplaceProgram, h0, hg]

/-- Reuse of the most recently freed id (R43). -/
theorem takeId_of_free {id : Word} {rest : List Word} (h : s.free = id :: rest) :
    takeId s = some (id, s.setFree rest) := by simp [takeId, h]

/-- A fresh id (R43). -/
theorem takeId_of_fresh (h : s.free = []) (hn : s.nextId < 2 ^ 32) :
    takeId s = some (BitVec.ofNat 32 s.nextId, s.setNextId (s.nextId + 1)) := by
  have hn' : s.nextId < Config.idLimit := hn
  simp [takeId, h, hn']

theorem segMap_of_takeId {n id : Word} {u : State} (h : takeId s = some (id, u))
    (hf : s.fits n = true) : segMap n s = .ok (id, u.setSegment id (zeroSegment n.toNat)) := by
  simp [segMap, h, hf]

/-- R52: the store holds `n` more words. -/
theorem fits_iff {n : Word} :
    s.fits n = true ↔ ∀ cap, s.capacityWords = some cap → s.liveWords + n.toNat ≤ cap := by
  unfold State.fits
  split <;> simp_all

/-! ## The input port -/

/-- R164: what `receive()` can do. -/
theorem receive_cases (s : State) :
    (s.inp = [] ∧ receive s = (.eof, s)) ∨
      ∃ b rest, s.inp = b :: rest ∧ receive s = (.byte b, s.setInp rest) := by
  unfold receive
  split
  · left; simp_all
  · right; exact ⟨_, _, by assumption, rfl⟩

/-! ## How a meaning ends -/

@[simp] theorem orRaise_ok (s t : State) : orRaise s (.ok t) = .next t := rfl

@[simp] theorem orRaise_error (s : State) (k : FaultKind) :
    orRaise s (.error k) = .next (s.raise k) := rfl

@[simp] theorem orRefuse_ok (s t : State) : orRefuse s (.ok t) = .next t := rfl

@[simp] theorem orRefuse_error (s : State) (m : RefusalMark) :
    orRefuse s (.error m) = .next (s.refuse m) := rfl

/-- A meaning that may fault answers the operation's state or the raised fault. -/
theorem orRaise_next {r : Except FaultKind State} (h : orRaise s r = .next t) :
    r = .ok t ∨ ∃ k, r = .error k ∧ t = s.raise k := by
  unfold orRaise at h
  split at h <;> cases h
  · exact .inl rfl
  · exact .inr ⟨_, rfl, rfl⟩

/-- A meaning that may be refused answers the operation's state or the marked one. -/
theorem orRefuse_next {r : Except RefusalMark State} (h : orRefuse s r = .next t) :
    r = .ok t ∨ ∃ m, r = .error m ∧ t = s.refuse m := by
  unfold orRefuse at h
  split at h <;> cases h
  · exact .inl rfl
  · exact .inr ⟨_, rfl, rfl⟩

/-! ## Every memory operation keeps the canonical form -/

theorem reset_memoryWf : Memory.wf State.reset.seg := by decide

/-- The segment under an id of a canonical table is canonical. -/
theorem segment_wf {id : Word} {g : Segment} (hw : Memory.wf s.seg) (h : s.segment id = some g) :
    g.wf := (hw.2 _ (mem_of_tableFind h)).2

theorem word_lt_idLimit (w : Word) : w.toNat < Config.idLimit := w.isLt

theorem memWrite_memoryWf {id off v : Word} (hw : Memory.wf s.seg)
    (h : memWrite id off v s = .ok t) : Memory.wf t.seg := by
  obtain ⟨g, hg, hlt, rfl⟩ := memWrite_ok h
  exact tableInsert_memoryWf hw (word_lt_idLimit id) (segmentPut_wf (segment_wf hw hg) hlt)

theorem takeId_seg {id : Word} (h : takeId s = some (id, t)) : t.seg = s.seg := by
  rcases takeId_some h with ⟨-, ht⟩ | ⟨-, -, -, ht⟩ <;> rw [ht] <;> rfl

theorem segMap_memoryWf {n id : Word} (hw : Memory.wf s.seg) (h : segMap n s = .ok (id, t)) :
    Memory.wf t.seg := by
  obtain ⟨u, hu, -, rfl⟩ := segMap_ok h
  simp only [setSegment_seg, takeId_seg hu]
  exact tableInsert_memoryWf hw (word_lt_idLimit id) (zeroSegment_wf _)

theorem segUnmap_memoryWf {id : Word} (hw : Memory.wf s.seg) (h : segUnmap id s = .ok t) :
    Memory.wf t.seg := by
  obtain ⟨-, -, rfl⟩ := segUnmap_ok h
  exact tableErase_memoryWf hw

theorem segReplaceProgram_memoryWf {id : Word} (hw : Memory.wf s.seg)
    (h : segReplaceProgram id s = .ok t) : Memory.wf t.seg := by
  obtain ⟨g, hg, ⟨-, rfl⟩ | ⟨-, rfl⟩⟩ := segReplaceProgram_ok h
  · exact hw
  · exact tableInsert_memoryWf hw (word_lt_idLimit _) (segment_wf hw hg)

end Sys2Proof.Machine
end

