-- ==== Sys2Proof/Laws/Step.lean ====
section
/-!
SUPPORT. What a step can do, said once; and that loading makes a canonical memory.
-/

namespace Sys2Proof.Machine

variable {s t : State}

/-- Where a step exists (R95, D26). -/
theorem stopped_none : stopped s = none ↔ s.refused = none ∧ s.runState = .running := by
  unfold stopped
  split
  · simp_all
  · split <;> simp_all

/-- R91: what the fetch can do. -/
theorem fetchWord_ok {w : Word} (h : fetchWord s = .ok w) :
    ∃ g, s.segment 0#32 = some g ∧ s.pc.toNat < g.len ∧ w = segmentGet g s.pc.toNat := by
  unfold fetchWord at h
  split at h
  · cases h
  · split at h
    · cases h; exact ⟨_, by assumption, by assumption, rfl⟩
    · cases h

theorem fetchWord_error {k : FaultKind} (h : fetchWord s = .error k) :
    k = .invalidInstruction ∧ ∀ g, s.segment 0#32 = some g → g.len ≤ s.pc.toNat := by
  unfold fetchWord at h
  split at h
  · cases h; simp_all
  · split at h
    · cases h
    · cases h; simp_all

theorem fetchInstr_ok {i : Instr} (h : fetchInstr s = .ok i) :
    ∃ w, fetchWord s = .ok w ∧ decodeInstr w = some i := by
  unfold fetchInstr at h
  split at h
  · cases h
  · split at h
    · cases h; exact ⟨_, by assumption, by assumption⟩
    · cases h

theorem fetchInstr_error {k : FaultKind} (h : fetchInstr s = .error k) : k = .invalidInstruction := by
  unfold fetchInstr at h
  split at h
  · cases h; exact (fetchWord_error (by assumption)).1
  · split at h
    · cases h
    · cases h; rfl

/-- R90: what a step that answers a next state can be: a fault at fetch or decode, or the dispatched
instruction. -/
theorem step_next (h : step s = .next t) :
    s.refused = none ∧ s.runState = .running ∧
      ((∃ k, fetchInstr s = .error k ∧ t = s.raise k) ∨
        ∃ i, fetchInstr s = .ok i ∧ exec i s = .next t) := by
  unfold step at h
  cases hs : stopped s with
  | some o =>
    simp only [hs] at h
    subst h
    unfold stopped at hs
    split at hs
    · cases hs
    · split at hs <;> cases hs
  | none =>
    obtain ⟨hr, hrun⟩ := stopped_none.mp hs
    simp only [hs] at h
    refine ⟨hr, hrun, ?_⟩
    cases hf : fetchInstr s with
    | error k => simp only [hf] at h; cases h; exact .inl ⟨k, rfl, rfl⟩
    | ok i => simp only [hf] at h; exact .inr ⟨i, rfl, h⟩

/-- R183: what a launch that is not a load-time error is. -/
theorem launch_some {capacity : Option Nat} {image input : List Byte}
    (h : launch capacity image input = some s) :
    ∃ ws, imageWords image = some ws ∧ ws.length ≤ Config.maxSegmentWords ∧
      s = launchWords capacity ws input := by
  unfold launch at h
  split at h
  · cases h
  · split at h
    · cases h; exact ⟨_, by assumption, by assumption, rfl⟩
    · cases h

theorem launchWords_memoryWf (capacity : Option Nat) (ws : List Word) (input : List Byte) :
    Memory.wf (launchWords capacity ws input).seg := by
  refine ⟨List.pairwise_singleton _ _, fun e he => ?_⟩
  obtain rfl := List.mem_singleton.mp he
  exact ⟨Nat.zero_lt_succ _, segmentOfWords_wf ws⟩

end Sys2Proof.Machine
end

