-- ==== Sys2Proof/Laws/Frame.lean ====
section
/-!
SUPPORT. How the frame predicates of Safety.lean are met, and what each shared operation leaves as it
was.
-/

namespace Sys2Proof.Machine

variable {s t u : State}

/-! ## Meeting the frame predicates -/

theorem keepsSegments_of_seg (hs : t.seg = s.seg) (hn : t.nextId = s.nextId) (hf : t.free = s.free) :
    KeepsSegments s t := by
  have h : ∀ id, t.segment id = s.segment id := fun id => by simp only [State.segment, hs]
  exact ⟨fun id => segWords_congr (h id), fun id off => memRead_congr off (h id), hn, hf⟩

theorem keepsSegmentsBut_of_segment {id : Word} (h : ∀ j, j ≠ id → t.segment j = s.segment j) :
    KeepsSegmentsBut id s t :=
  ⟨fun j hj => segWords_congr (h j hj), fun j off hj => memRead_congr off (h j hj)⟩

theorem keepsRegs_of_x (h : t.x = s.x) : KeepsRegs s t := fun r => by simp only [State.reg, h]

/-- A register write and the advance of the pc meet `WritesOnly`. -/
theorem writesOnly_setReg (s : State) (a : RegIdx) (v : Word) :
    WritesOnly a s ((s.setReg a v).advance) :=
  ⟨rfl, fun r hr => by simp [reg_setReg_other _ _ _ _ hr], keepsSegments_of_seg rfl rfl rfl,
    ⟨rfl, rfl⟩, rfl, rfl, rfl, rfl⟩

/-- Raising a fault meets `Raises`. -/
theorem raises_raise (s : State) (k : FaultKind) : Raises k s (s.raise k) :=
  ⟨rfl, rfl, rfl, keepsRegs_of_x rfl, keepsSegments_of_seg rfl rfl rfl, ⟨rfl, rfl⟩, rfl, rfl⟩

/-- Refusing meets `Refuses`. -/
theorem refuses_refuse (s : State) (m : RefusalMark) : Refuses m s (s.refuse m) :=
  ⟨rfl, rfl, keepsRegs_of_x rfl, keepsSegments_of_seg rfl rfl rfl, ⟨rfl, rfl⟩, rfl, rfl, rfl⟩

/-! ## Segments as lists of words after an operation -/

theorem segWords_setSegment (s : State) (id j : Word) (g : Segment) :
    (s.setSegment id g).segWords j = if j = id then some (segmentWords g) else s.segWords j := by
  simp only [State.segWords, segment_setSegment]; split <;> rfl

theorem segWords_dropSegment (s : State) (id j : Word) :
    (s.dropSegment id).segWords j = if j = id then none else s.segWords j := by
  simp only [State.segWords, segment_dropSegment]; split <;> rfl

theorem keepsSegmentsBut_setSegment (s : State) (id : Word) (g : Segment) :
    KeepsSegmentsBut id s (s.setSegment id g) :=
  keepsSegmentsBut_of_segment fun j hj => by simp [segment_setSegment, hj]

theorem keepsSegmentsBut_dropSegment (s : State) (id : Word) :
    KeepsSegmentsBut id s (s.dropSegment id) :=
  keepsSegmentsBut_of_segment fun j hj => by simp [segment_dropSegment, hj]

/-- A live segment's length is that of its list of words. -/
theorem segWords_length {id : Word} {g : Segment} {ws : List Word} (hg : s.segment id = some g)
    (h : s.segWords id = some ws) : ws.length = g.len := by
  rw [segWords_of_segment hg] at h
  cases h; exact segmentWords_length g

end Sys2Proof.Machine
end

