-- ==== Sys2Proof/Laws/PerInstr.lean ====
section
/-!
SUPPORT. The family Opcode: every instruction's word carries that instruction's opcode in bits 31:28
(30_encoding.md R71, R75), whatever its operands.
-/

namespace Sys2Proof.Laws.Opcode

/-- The opcode field of the instruction's word is the instruction's opcode. -/
def Statement (i : Instr) : Prop := opField (encode i) = opcodeOf i

theorem cmov (a b c : RegIdx) : Statement (.cmov a b c) := opField_enc3 _ _ _ _
theorem sload (a b c : RegIdx) : Statement (.sload a b c) := opField_enc3 _ _ _ _
theorem sstore (a b c : RegIdx) : Statement (.sstore a b c) := opField_enc3 _ _ _ _
theorem add (a b c : RegIdx) : Statement (.add a b c) := opField_enc3 _ _ _ _
theorem mul (a b c : RegIdx) : Statement (.mul a b c) := opField_enc3 _ _ _ _
theorem div (a b c : RegIdx) : Statement (.div a b c) := opField_enc3 _ _ _ _
theorem nand (a b c : RegIdx) : Statement (.nand a b c) := opField_enc3 _ _ _ _
theorem halt : Statement .halt := opField_enc3 _ _ _ _
theorem map (b c : RegIdx) : Statement (.map b c) := opField_enc3 _ _ _ _
theorem unmap (c : RegIdx) : Statement (.unmap c) := opField_enc3 _ _ _ _
theorem out (c : RegIdx) : Statement (.out c) := opField_enc3 _ _ _ _
theorem inp (c : RegIdx) : Statement (.inp c) := opField_enc3 _ _ _ _
theorem loadp (b c : RegIdx) : Statement (.loadp b c) := opField_enc3 _ _ _ _
theorem loadi (a : RegIdx) (imm : Nat) : Statement (.loadi a imm) := opField_encI _ _

end Sys2Proof.Laws.Opcode
end

