-- ==== Sys2Proof/Tests/Slice0.lean ====
section
/-!
SUPPORT. Tests on fixed values, their expected results from 95_test_vectors.md (the vector's id stands
in each comment) or from the encoding tables, and for every obligation with hypotheses a witness that
meets them.
-/

namespace Sys2Proof.Tests

open Sys2Proof.Machine

/-! ## Helpers -/

/-- The next state of an outcome. -/
def after : Host.Outcome State Fault Refusal → Option State
  | .next s => some s
  | .fault _ => none
  | .refused _ => none

/-- A state with the given registers, a program, segment 1 when one is given, and input. -/
def small (x : Vector Word 8) (prog : List Word) (seg1 : Option (List Word)) (input : List Byte) : State :=
  { launchWords none prog input with
    x := x
    seg := match seg1 with
      | none => [(0, segmentOfWords prog)]
      | some ws => [(0, segmentOfWords prog), (1, segmentOfWords ws)]
    nextId := match seg1 with
      | none => 1
      | some _ => 2 }

/-- Only registers. -/
def regs (x : Vector Word 8) : State := small x [] none []

/-! ## WellFormed -/

theorem test_wellFormed_largest_immediate : WellFormed (.loadi 7 0x1FFFFFF) = true := by decide

theorem test_wellFormed_refuses_26_bits : WellFormed (.loadi 7 0x2000000) = false := by decide

theorem test_assemble_refuses_26_bits : assemble (.loadi 7 0x2000000) = none := by decide

/-! ## Decode: each word is written out from R72 and R73, bit 31 first -/

/-- 0000, 19 unused bits, A 001, B 010, C 011: decoder vector 0x00000053. -/
theorem test_decode_cmov : decodeInstr 0b0000_0000000000000000000_001_010_011#32 = some (.cmov 1 2 3) := by
  decide

/-- 0001, as above. -/
theorem test_decode_sload : decodeInstr 0b0001_0000000000000000000_001_010_011#32 = some (.sload 1 2 3) := by
  decide

/-- 0010, as above. -/
theorem test_decode_sstore :
    decodeInstr 0b0010_0000000000000000000_001_010_011#32 = some (.sstore 1 2 3) := by decide

/-- 0011, A 011, B 001, C 010: decoder vector 0x300000CA. -/
theorem test_decode_add : decodeInstr 0b0011_0000000000000000000_011_001_010#32 = some (.add 3 1 2) := by
  decide

/-- 0100. -/
theorem test_decode_mul : decodeInstr 0b0100_0000000000000000000_001_010_011#32 = some (.mul 1 2 3) := by
  decide

/-- 0101, A 011, B 010, C 011: vector DV8's word. -/
theorem test_decode_div : decodeInstr 0b0101_0000000000000000000_011_010_011#32 = some (.div 3 2 3) := by
  decide

/-- 0110, unused bits all 1 (R77). -/
theorem test_decode_nand : decodeInstr 0b0110_1111111111111111111_001_010_011#32 = some (.nand 1 2 3) := by
  decide

/-- 0111, every other bit 1: decoder vector 0x7FFFFFFF (R78). -/
theorem test_decode_halt : decodeInstr 0b0111_1111111111111111111_111_111_111#32 = some .halt := by
  decide

/-- 1000, A ignored: decoder vector 0x80000011 with A 111. -/
theorem test_decode_map : decodeInstr 0b1000_0000000000000000000_111_010_001#32 = some (.map 2 1) := by
  decide

/-- 1001, A and B ignored. -/
theorem test_decode_unmap : decodeInstr 0b1001_0000000000000000000_101_110_010#32 = some (.unmap 2) := by
  decide

/-- 1010, A and B ignored: decoder vector 0xA00001FF. -/
theorem test_decode_out : decodeInstr 0b1010_0000000000000000000_111_111_111#32 = some (.out 7) := by
  decide

/-- 1011. -/
theorem test_decode_in : decodeInstr 0b1011_0000000000000000000_000_000_001#32 = some (.inp 1) := by
  decide

/-- 1100: decoder vector 0xC0000013. -/
theorem test_decode_loadp : decodeInstr 0b1100_0000000000000000000_000_010_011#32 = some (.loadp 2 3) := by
  decide

/-- 1101, A in bits 27:25: decoder vectors 0xD2000019 and 0xDFFFFFFF. -/
theorem test_decode_loadi :
    decodeInstr 0b1101_001_0000000000000000000011001#32 = some (.loadi 1 25) ∧
      decodeInstr 0xDFFFFFFF#32 = some (.loadi 7 0x1FFFFFF) := by decide

/-- Decoder vectors 0xE0000000 and 0xFFFFFFFF. -/
theorem test_decode_undefined :
    decode 0xE0000000#32 = .invalid 14#4 0 0 0 ∧ decode 0xFFFFFFFF#32 = .invalid 15#4 7 7 7 := by decide

theorem test_decodeTableWord : decodeTableWord 32 0xD2000019 = some (.loadi 1 25) := by decide

/-- The words of program P3, from its assembly. -/
theorem test_encode_words :
    encode (.nand 4 0 0) = 0x60000100#32 ∧ encode (.cmov 7 5 2) = 0x000001EA#32 ∧
      encode (.loadi 6 11) = 0xDC00000B#32 ∧ encode (.loadp 0 7) = 0xC0000007#32 := by decide

/-! ## One step on a small state -/

/-- CM2. -/
theorem test_cmov_moves :
    (after (exec (.cmov 1 2 3) (regs #v[0, 5, 9, 0x80000000, 0, 0, 0, 0]))).map (·.reg 1) = some 9#32 := by
  decide

/-- CM1. -/
theorem test_cmov_keeps :
    (after (exec (.cmov 1 2 3) (regs #v[0, 5, 9, 0, 0, 0, 0, 0]))).map (·.reg 1) = some 5#32 := by decide

/-- SL4: the old x1 is both id and offset. -/
theorem test_sload_aliased :
    (after (exec (.sload 1 1 1) (small #v[0, 1, 0, 0, 0, 0, 0, 0] [] (some [5, 6]) []))).map (·.reg 1)
      = some 6#32 := by decide

/-- SL2: offset 3 of a segment of 3 words. -/
theorem test_sload_past_end :
    (after (exec (.sload 1 2 3) (small #v[0, 4, 1, 3, 0, 0, 0, 0] [] (some [7, 8, 9]) []))).map
      (fun t => (t.fault, t.reg 1)) = some (some ⟨.invalidAccess, 0#32⟩, 4#32) := by decide

/-- SS1. -/
theorem test_sstore_last_word :
    (after (exec (.sstore 1 2 3) (small #v[0, 1, 1, 0xDEADBEEF, 0, 0, 0, 0] [] (some [0, 0]) []))).map
      (·.segWords 1#32) = some (some [0#32, 0xDEADBEEF#32]) := by decide

/-- SS2: offset 6 of a segment 0 of 6 words. -/
theorem test_sstore_past_end :
    (after (exec (.sstore 0 1 2) (small #v[0, 6, 0, 0, 0, 0, 0, 0] [1, 2, 3, 4, 5, 6] none []))).map
      (·.fault) = some (some ⟨.invalidAccess, 0#32⟩) := by decide

/-- S5, AD1. -/
theorem test_add_wraps :
    (after (exec (.add 3 1 2) (regs #v[0, 0xFFFFFFFF, 2, 0, 0, 0, 0, 0]))).map (·.reg 3) = some 1#32 := by
  decide

/-- AD5: the destination is both sources. -/
theorem test_add_aliased :
    (after (exec (.add 1 1 1) (regs #v[0, 0x80000001, 0, 0, 0, 0, 0, 0]))).map (·.reg 1) = some 2#32 := by
  decide

/-- MU2. -/
theorem test_mul_wraps :
    (after (exec (.mul 1 2 3) (regs #v[0, 0, 0xFFFFFFFF, 0xFFFFFFFF, 0, 0, 0, 0]))).map (·.reg 1)
      = some 1#32 := by decide

/-- MU1. -/
theorem test_mul_drops_the_high_half :
    (after (exec (.mul 1 2 3) (regs #v[0, 7, 0x10000, 0x10000, 0, 0, 0, 0]))).map (·.reg 1)
      = some 0#32 := by decide

/-- DV6: unsigned. -/
theorem test_div_unsigned :
    (after (exec (.div 1 2 3) (regs #v[0, 0, 0x80000000, 2, 0, 0, 0, 0]))).map (·.reg 1)
      = some 0x40000000#32 := by decide

/-- S8, DV7. -/
theorem test_div_by_zero :
    (after (exec (.div 1 2 3) (regs #v[0, 6, 0, 0, 0, 0, 0, 0]))).map
      (fun t => (t.fault, t.runState, t.reg 1, t.pc))
      = some (some ⟨.divideByZero, 0#32⟩, .faulted, 6#32, 0#32) := by decide

/-- ND4. -/
theorem test_nand :
    (after (exec (.nand 1 2 3) (regs #v[0, 0, 0xF0F0F0F0, 0xFF00FF00, 0, 0, 0, 0]))).map (·.reg 1)
      = some 0x0FFF0FFF#32 := by decide

/-- H1. -/
theorem test_halt :
    (after (exec .halt { regs #v[0, 0, 0, 0, 0, 0, 0, 0] with pc := 4 })).map
      (fun t => (t.runState, t.pc, t.fault)) = some (.halted, 4#32, none) := by decide

/-- MP1: the size is read before the id is written. -/
theorem test_map_fresh :
    (after (exec (.map 1 1) (regs #v[0, 4, 0, 0, 0, 0, 0, 0]))).map
      (fun t => (t.reg 1, t.segWords 1#32, t.nextId)) = some (1#32, some [0#32, 0#32, 0#32, 0#32], 2) := by
  decide

/-- MP3. -/
theorem test_map_reuses_the_last_freed :
    (after (exec (.map 2 0) { regs #v[0, 0, 0, 0, 0, 0, 0, 0] with free := [3, 1], nextId := 4 })).map
      (fun t => (t.reg 2, t.free, t.nextId)) = some (3#32, [1#32], 4) := by decide

/-- UM1. -/
theorem test_unmap :
    (after (exec (.unmap 1) (small #v[0, 1, 0, 0, 0, 0, 0, 0] [] (some [0]) []))).map
      (fun t => (t.live 1#32, t.free)) = some (false, [1#32]) := by decide

/-- UM2. -/
theorem test_unmap_zero :
    (after (exec (.unmap 0) (regs #v[0, 0, 0, 0, 0, 0, 0, 0]))).map (·.fault)
      = some (some ⟨.invalidAccess, 0#32⟩) := by decide

/-- O3. -/
theorem test_out_255 :
    (after (exec (.out 1) (regs #v[0, 255, 0, 0, 0, 0, 0, 0]))).map (·.out) = some [0xFF#8] := by decide

/-- O4. -/
theorem test_out_256 :
    (after (exec (.out 1) (regs #v[0, 256, 0, 0, 0, 0, 0, 0]))).map (fun t => (t.fault, t.out))
      = some (some ⟨.invalidOutput, 0#32⟩, []) := by decide

/-- IN1. -/
theorem test_in_byte :
    (after (exec (.inp 1) (small #v[0, 0, 0, 0, 0, 0, 0, 0] [] none [0xFF]))).map
      (fun t => (t.reg 1, t.inp)) = some (0xFF#32, []) := by decide

/-- IN2. -/
theorem test_in_end_of_stream :
    (after (exec (.inp 1) (regs #v[0, 0, 0, 0, 0, 0, 0, 0]))).map (·.reg 1) = some 0xFFFFFFFF#32 := by
  decide

/-- LP2. -/
theorem test_loadp_copies :
    (after (exec (.loadp 2 3) (small #v[0, 0, 1, 0, 0, 0, 0, 0] [1, 2, 3] (some [0x70000000]) []))).map
      (fun t => (t.segWords 0#32, t.segWords 1#32, t.pc))
      = some (some [0x70000000#32], some [0x70000000#32], 0#32) := by decide

/-- LP5. -/
theorem test_loadp_not_live :
    (after (exec (.loadp 1 0) (small #v[0, 5, 0, 0, 0, 0, 0, 0] [1, 2, 3] none []))).map
      (fun t => (t.fault, t.segWords 0#32)) = some (some ⟨.invalidAccess, 0#32⟩, some [1#32, 2#32, 3#32]) := by
  decide

/-- LI2. -/
theorem test_loadi_largest :
    (after (exec (.loadi 7 0x1FFFFFF) (regs #v[0, 0, 0, 0, 0, 0, 0, 0]))).map (fun t => (t.reg 7, t.pc))
      = some (0x01FFFFFF#32, 1#32) := by decide

/-! ## The engine, the image and the host -/

/-- E1, F8. -/
theorem test_step_empty_program :
    (after (step State.reset)).map (·.fault) = some (some ⟨.invalidInstruction, 0#32⟩) := by decide

/-- A placed instruction is the first that runs after reset. -/
theorem test_withFetchWord_runs :
    (after (step (State.reset.withFetchWord 32 0xD2000019))).map (fun t => (t.reg 1, t.pc))
      = some (25#32, 1#32) := by decide

/-- F5's word 0xE0000000. -/
theorem test_step_opcode_14 :
    (after (step (small #v[0, 0, 0, 0, 0, 0, 0, 0] [0xE0000000] none []))).map (·.fault)
      = some (some ⟨.invalidInstruction, 0#32⟩) := by decide

/-- P1's first word, from its image bytes. -/
theorem test_image_big_endian :
    imageWords [0xD2, 0x00, 0x00, 0x19] = some [0xD2000019#32] ∧ imageWords [0xD2, 0x00, 0x00] = none := by
  decide

theorem test_launch_empty : launch none [] [] = some State.reset := by decide

/-! ## Witnesses: for each obligation with hypotheses, values that meet them -/

/-- A launched machine whose program is `loadi r1, 25`. -/
def loaded : State := launchWords none [0xD2000019#32] []

/-- Its registers zero, segment 1 of three words, a program of two. -/
def two : State := small #v[0, 1, 2, 3, 255, 256, 0, 0] [0xD2000019, 0x70000000] (some [7, 8, 9]) []

theorem witness_DecoderRecoversWhatTheEncoderPacked : (12#4 : BitVec 4) ≠ 13#4 ∧ (14#4 : BitVec 4) ≠ 13#4 := by
  decide

theorem witness_DecodeOfEncodeIsTheInstruction : WellFormed (.loadi 7 (2 ^ 25 - 1)) = true := by decide

theorem witness_IgnoredBitsNeverChangeTheInstruction :
    (0xCFFFFFFF#32 : Word).toNat / 2 ^ 28 = (0xC00001FF#32 : Word).toNat / 2 ^ 28 ∧
      (0xC00001FF#32 : Word).toNat / 2 ^ 28 ≤ 12 ∧
      (0xCFFFFFFF#32 : Word).toNat % 2 ^ 9 = (0xC00001FF#32 : Word).toNat % 2 ^ 9 ∧
      (0x7FFFFFFF#32 : Word).toNat / 2 ^ 28 = 7 ∧ (0x80000000#32 : Word).toNat / 2 ^ 28 = 8 ∧
      (0xC00001FF#32 : Word).toNat / 2 ^ 28 = 12 ∧ (0x90000000#32 : Word).toNat / 2 ^ 28 = 9 ∧
      (0xBFFFFFFF#32 : Word).toNat / 2 ^ 28 = 11 := by decide

theorem witness_UndefinedOpcodesRaiseInvalidInstruction :
    14 ≤ (0xE0000000#32 : Word).toNat / 2 ^ 28 ∧ (0xDFFFFFFF#32 : Word).toNat / 2 ^ 28 ≤ 13 ∧
      (launchWords none [0xE0000000#32] []).canStep ∧
      (launchWords none [0xE0000000#32] []).segWords 0#32 = some [0xE0000000#32] ∧
      [0xE0000000#32][(launchWords none [0xE0000000#32] []).pc.toNat]? = some 0xE0000000#32 :=
  ⟨by decide, by decide, ⟨rfl, rfl⟩, by decide, by decide⟩

theorem witness_StepRunsTheDecodedInstruction :
    loaded.canStep ∧ loaded.segWords 0#32 = some [0xD2000019#32] ∧
      [0xD2000019#32][loaded.pc.toNat]? = some 0xD2000019#32 ∧
      decodeInstr 0xD2000019#32 = some (.loadi 1 25) :=
  ⟨⟨rfl, rfl⟩, by decide, by decide, by decide⟩

theorem witness_PlacedInstructionIsRunNext : decodeTableWord 32 0x70000000 = some .halt := by decide

/-- The pc just inside segment 0, and just past its end. -/
theorem witness_FetchChecksTheCurrentLength :
    loaded.canStep ∧ loaded.segWords 0#32 = some [0xD2000019#32] ∧ loaded.pc.toNat < 1 ∧
      loaded.advance.canStep ∧ loaded.advance.segWords 0#32 = some [0xD2000019#32] ∧
      1 ≤ loaded.advance.pc.toNat :=
  ⟨⟨rfl, rfl⟩, by decide, by decide, ⟨rfl, rfl⟩, by decide, by decide⟩

theorem witness_OnlyHaltOrFaultStopsAndNothingResumes :
    loaded.halt.refused = none ∧ loaded.halt.runState = .halted ∧
      (loaded.raise .invalidAccess).refused = none ∧
      (loaded.raise .invalidAccess).runState = .faulted ∧
      (∃ t, step (launchWords none [0x70000000#32] []) = .next t ∧ t.ended) ∧
      ∃ t, step State.reset = .next t ∧ t.ended :=
  ⟨rfl, rfl, rfl, rfl, ⟨_, rfl, .inl rfl⟩, ⟨_, rfl, .inr rfl⟩⟩

theorem witness_RefusedStateHasNoSuccessor :
    (loaded.refuse .idSpaceExhausted).refused = some .idSpaceExhausted ∧
      (loaded.refuse .capacityExhausted).refused = some .capacityExhausted := ⟨rfl, rfl⟩

theorem witness_FaultsArePrecise : ∃ t, step State.reset = .next t ∧ t.runState = .faulted := ⟨_, rfl, rfl⟩

/-- Within the program a fault due (F4's word), none due, and no instruction; and past the end. -/
theorem witness_FaultsAreRaisedExactlyWhenDue :
    loaded.canStep ∧ loaded.segWords 0#32 = some [0xD2000019#32] ∧
      [0xD2000019#32][loaded.pc.toNat]? = some 0xD2000019#32 ∧
      (decodeInstr 0xD2000019#32).map (faultDue · loaded) = some none ∧
      (decodeInstr 0x90000000#32).map (faultDue · loaded) = some (some .invalidAccess) ∧
      decodeInstr 0xF0000000#32 = none ∧ 1 ≤ loaded.advance.pc.toNat :=
  ⟨⟨rfl, rfl⟩, by decide, by decide, by decide, by decide, by decide, by decide⟩

theorem witness_ConditionalMoveCopiesOnNonZero : two.reg 1 ≠ 0#32 ∧ two.reg 0 = 0#32 := by decide

/-- The last word, one past it, and an id that is not live. -/
theorem witness_SegmentedLoadReadsOneWord :
    two.segWords (two.reg 1) = some [7#32, 8#32, 9#32] ∧
      [7#32, 8#32, 9#32][(two.reg 2).toNat]? = some 9#32 ∧
      [7#32, 8#32, 9#32].length ≤ (two.reg 3).toNat ∧ two.segWords (two.reg 2) = none := by decide

theorem witness_SegmentedStoreWritesOneWord :
    two.segWords (two.reg 1) = some [7#32, 8#32, 9#32] ∧
      (two.reg 2).toNat < [7#32, 8#32, 9#32].length ∧
      [7#32, 8#32, 9#32].length ≤ (two.reg 3).toNat ∧ two.segWords (two.reg 2) = none := by decide

theorem witness_DivideWritesTheQuotientOrFaults : two.reg 1 ≠ 0#32 ∧ two.reg 0 = 0#32 := by decide

theorem witness_HaltEndsTheRunAndKeepsAllElse : (0x7FFFFFFF#32 : Word).toNat / 2 ^ 28 = 7 := by decide

/-- `two` with an id to reuse, and a store that five more words (two and three live) just fill. -/
theorem witness_MapMakesAZeroSegmentUnderTheNextId :
    ({ two with capacityWords := some 8 } : State).liveWords + (two.reg 3).toNat ≤ 8 ∧
      (two.setFree [5]).free = 5#32 :: [] ∧ two.free = [] ∧
      (two.setNextId (2 ^ 32 - 1)).nextId < 2 ^ 32 := by decide

theorem witness_MapIsRefusedOnExhaustion :
    (two.setNextId (2 ^ 32)).free = [] ∧ (two.setNextId (2 ^ 32)).nextId = 2 ^ 32 ∧
      two.nextId < 2 ^ 32 ∧ ({ two with capacityWords := some 7 } : State).capacityWords = some 7 ∧
      7 < ({ two with capacityWords := some 7 } : State).liveWords + (two.reg 3).toNat := by decide

theorem witness_UnmapFreesTheSegmentOrFaults :
    two.reg 1 ≠ 0#32 ∧ two.segWords (two.reg 1) ≠ none ∧ two.reg 0 = 0#32 ∧
      two.segWords (two.reg 2) = none := by decide

theorem witness_OutputEmitsOneByteOrFaults : (two.reg 4).toNat ≤ 255 ∧ 255 < (two.reg 5).toNat := by decide

theorem witness_InputReadsOneByteOrTheSentinel :
    (launchWords none [] [0xFF]).inp = 0xFF#8 :: [] ∧ two.inp = [] := by decide

theorem witness_LoadProgramJumpsAndMayReplaceSegmentZero :
    two.reg 0 = 0#32 ∧ two.reg 1 ≠ 0#32 ∧ two.segWords (two.reg 1) = some [7#32, 8#32, 9#32] ∧
      two.reg 2 ≠ 0#32 ∧ two.segWords (two.reg 2) = none := by decide

theorem witness_LoadImmediateZeroExtends : 2 ^ 25 - 1 < 2 ^ 25 := by decide

theorem witness_MemWriteReplacesOneWord :
    two.segWords 1#32 = some [7#32, 8#32, 9#32] ∧ (2#32 : Word).toNat < [7#32, 8#32, 9#32].length ∧
      [7#32, 8#32, 9#32].length ≤ (3#32 : Word).toNat ∧ two.segWords 2#32 = none := by decide

theorem witness_ReadReturnsTheLatestWrite : ∃ t, memWrite 1#32 2#32 5#32 two = .ok t := ⟨_, rfl⟩

theorem witness_SegUnmapReleasesAndPushesTheId :
    (1#32 : Word) ≠ 0#32 ∧ two.segWords 1#32 ≠ none ∧ two.segWords 2#32 = none ∧
      ∃ t id u, segUnmap 1#32 two = .ok t ∧ segMap 4#32 t = .ok (id, u) :=
  ⟨by decide, by decide, by decide, _, _, _, rfl, rfl⟩

theorem witness_SegReplaceProgramCopiesIntoSegmentZero :
    two.segWords 2#32 = none ∧ two.segWords 0#32 = some [0xD2000019#32, 0x70000000#32] ∧
      two.segWords 1#32 = some [7#32, 8#32, 9#32] ∧ (1#32 : Word) ≠ 0#32 := by decide

/-- After one replacement: a write to the source, its unmapping and reuse, and a write to segment 0. -/
theorem witness_ReplacementIsACopyNotAnAlias :
    (1#32 : Word) ≠ 0#32 ∧
      ∃ t, segReplaceProgram 1#32 two = .ok t ∧ (∃ u, memWrite 1#32 0#32 5#32 t = .ok u) ∧
        (∃ u u', segUnmap 1#32 t = .ok u ∧ segMap 4#32 u = .ok (1#32, u')) ∧
        ∃ u, memWrite 0#32 0#32 5#32 t = .ok u :=
  ⟨by decide, _, rfl, ⟨_, rfl⟩, ⟨_, _, rfl, rfl⟩, ⟨_, rfl⟩⟩

/-- `two` has the invariant. -/
theorem two_inv : two.Inv := by
  have hseg : ∀ j : Word, two.segment j =
      if j = 0#32 then some (segmentOfWords [0xD2000019, 0x70000000])
      else if j = 1#32 then some (segmentOfWords [7, 8, 9]) else none := by
    intro j
    by_cases h0 : j = 0#32
    · subst h0; rfl
    · by_cases h1 : j = 1#32
      · subst h1; rfl
      · have h0' : j.toNat ≠ 0 := fun e => h0 (BitVec.eq_of_toNat_eq e)
        have h1' : j.toNat ≠ 1 := fun e => h1 (BitVec.eq_of_toNat_eq e)
        simp [two, small, launchWords, State.segment, tableFind, h0, h1, h0', h1']
  have hn : two.nextId = 2 := rfl
  have hf : two.free = [] := rfl
  have hdead : ∀ j : Word, 2 ≤ j.toNat → two.live j = false := by
    intro j hj
    have h0 : j ≠ 0#32 := by rintro rfl; exact absurd hj (by decide)
    have h1 : j ≠ 1#32 := by rintro rfl; exact absurd hj (by decide)
    simp [State.live, hseg, h0, h1]
  refine ⟨⟨by decide, fun j hj => hdead j (hn ▸ hj), fun j => ?_, List.nodup_nil, List.not_mem_nil,
    fun j ws h => ?_⟩, by decide, by decide, by decide, by decide⟩
  · rw [hf, hn]
    refine ⟨fun h => absurd h List.not_mem_nil, fun ⟨h1, h2, hl⟩ => ?_⟩
    obtain rfl : j = 1#32 := BitVec.eq_of_toNat_eq (show j.toNat = 1 by omega)
    exact absurd hl (by decide)
  · rw [State.segWords, hseg] at h
    split at h
    · cases h; decide
    · split at h
      · cases h; decide
      · cases h

theorem witness_MapNeverReturnsALiveId :
    two.Inv ∧ ∃ t id, segMap 4#32 two = .ok (id, t) := ⟨two_inv, _, _, rfl⟩

theorem witness_FreedIdsComeBackLastFirst :
    (∃ u, unmapAll [1#32] two = .ok u) ∧ [4#32].length = [1#32].length ∧ two.capacityWords = none :=
  ⟨⟨_, rfl⟩, rfl, rfl⟩

/-- From a fresh table, and up to the last id there is. -/
theorem witness_FreshIdsAreHandedOutInOrder :
    loaded.free = [] ∧ loaded.capacityWords = none ∧ loaded.nextId + [4#32, 0#32].length ≤ 2 ^ 32 ∧
      (loaded.setNextId (2 ^ 32 - 1)).nextId + [4#32].length ≤ 2 ^ 32 := by decide

theorem witness_StoreToTheNextWordIsFetched :
    two.segWords 0#32 = some [0xD2000019#32, 0x70000000#32] ∧ two.reg 0 = 0#32 ∧
      two.reg 1 = two.pc + 1#32 ∧
      (two.pc + 1#32).toNat < [0xD2000019#32, 0x70000000#32].length := by decide

theorem witness_EveryStepKeepsTheInvariant : two.Inv ∧ ∃ t, step two = .next t :=
  ⟨two_inv, _, rfl⟩

theorem witness_TableInvariantHoldsInEveryReachableState :
    launch none [0xD2, 0x00, 0x00, 0x19] [] = some loaded ∧ ∃ t, Reaches loaded t :=
  ⟨by decide, _, 1, rfl⟩

/-- Two states that differ in a register and have one memory. -/
theorem witness_CanonicalMemoryIsDeterminedByItsSegments :
    Memory.wf two.seg ∧ Memory.wf (two.setReg 1 9#32).seg ∧
      ∀ id, two.segWords id = (two.setReg 1 9#32).segWords id :=
  ⟨by decide, by decide, fun _ => rfl⟩

theorem witness_AdvancingPcNeverWraps :
    two.Inv ∧ ∃ t, step two = .next t ∧ t.pc = two.pc + 1#32 := ⟨two_inv, _, rfl, rfl⟩

/-- Segment 1, and segment 0 under an instruction that is no LoadProgram. -/
theorem witness_SegmentLengthsAreFixed :
    two.Inv ∧ (∃ t, step two = .next t ∧ t.segWords 1#32 = some [7#32, 8#32, 9#32] ∧
        t.segWords 0#32 = some [0xD2000019#32, 0x70000000#32]) ∧
      two.segWords 1#32 = some [7#32, 8#32, 9#32] ∧ (1#32 : Word) ≠ 0#32 ∧
      two.segWords 0#32 = some [0xD2000019#32, 0x70000000#32] ∧
      ∀ b c, fetchInstr two ≠ .ok (.loadp b c) := by
  refine ⟨two_inv, ⟨_, rfl, by decide, by decide⟩, by decide, by decide, by decide, fun b c h => ?_⟩
  have e : fetchInstr two = .ok (.loadi 1 25) := rfl
  rw [e] at h; cases h

/-- A step that fetches nothing; one that writes register 1 and no segment; a store of x[3] at word 1 of
segment 1, whose other words, segments and registers the clauses speak of; an Output and an Input. -/
theorem witness_StepEffectsAreLimited :
    (∃ t k, step State.reset = .next t ∧ fetchInstr State.reset = .error k) ∧
      (∃ t, step two = .next t ∧ fetchInstr two = .ok (.loadi 1 25)) ∧
      writtenReg (.loadi 1 25) ≠ some 0 ∧ writtenSegment (.loadi 1 25) two ≠ some 1#32 ∧
      (∃ t, step (two.withFetchWord 32 0x2000004B) = .next t ∧
        fetchInstr (two.withFetchWord 32 0x2000004B) = .ok (.sstore 1 1 3)) ∧
      writtenSegment (.sstore 1 1 3) two ≠ some 0#32 ∧ (2#32 : Word) ≠ two.reg 1 ∧
      (∃ t, step (two.withFetchWord 32 0xA0000004) = .next t ∧
        fetchInstr (two.withFetchWord 32 0xA0000004) = .ok (.out 4)) ∧
      ∃ t, step (two.withFetchWord 32 0xB0000001) = .next t ∧
        fetchInstr (two.withFetchWord 32 0xB0000001) = .ok (.inp 1) :=
  ⟨⟨_, _, rfl, rfl⟩, ⟨_, rfl, rfl⟩, by decide, by decide, ⟨_, rfl, rfl⟩, by decide, by decide,
    ⟨_, rfl, rfl⟩, ⟨_, rfl, rfl⟩⟩

theorem witness_RegistersAreZeroAtStartup : launch none [0xD2, 0x00, 0x00, 0x19] [] = some loaded := by decide

theorem witness_ImageIsReadAsBigEndianWords :
    [0xD2#8, 0x00, 0x00, 0x19].length = 4 * 1 ∧ 1 ≤ 2 ^ 32 - 1 ∧
      [0xD2#8, 0x00, 0x00, 0x19][4 * 0]? = some 0xD2#8 ∧ [0xD2#8, 0x00, 0x00, 0x19][4 * 0 + 1]? = some 0x00#8 ∧
      [0xD2#8, 0x00, 0x00, 0x19][4 * 0 + 2]? = some 0x00#8 ∧
      [0xD2#8, 0x00, 0x00, 0x19][4 * 0 + 3]? = some 0x19#8 := by decide

theorem witness_BadImagesAreRejectedAtLoad : launch none [] [] = some State.reset := by decide

theorem witness_LaunchTakesTheInitialState :
    launch (some 7) [0xD2, 0x00, 0x00, 0x19] [0x41] =
      some (launchWords (some 7) [0xD2000019#32] [0x41#8]) := by decide

theorem witness_ReportGivesStatusFaultAndBytes :
    (loaded.raise .invalidAccess).refused = none ∧ (loaded.raise .invalidAccess).runState = .faulted ∧
      (loaded.raise .invalidAccess).fault = some ⟨.invalidAccess, 0#32⟩ ∧
      loaded.halt.runState = .halted ∧ loaded.halt.fault = none ∧ loaded.runState = .running := by decide

end Sys2Proof.Tests
end

/-!
PROOFS of the statements about the architectural state (10_state.md).
-/

namespace Sys2Proof.Machine

/-! ## Registers at startup -/

/-- R22: the registers of the reset state. -/
@[simp] theorem reg_reset (r : RegIdx) : State.reset.reg r = 0#32 :=
  Vector.getElem_replicate r.isLt

/-- R180: loading a program leaves the registers as reset made them. -/
theorem launchWords_keepsRegs (capacity : Option Nat) (ws : List Word) (input : List Byte) :
    KeepsRegs State.reset (launchWords capacity ws input) :=
  keepsRegs_of_x rfl

/-- Settles O47: a launch that is not a load-time error answers `launchWords`, which keeps the
registers of reset. -/
theorem registersAreZeroAtStartup : Obligations.RegistersAreZeroAtStartup := by
  refine ⟨reg_reset, fun capacity image input s h r => ?_⟩
  obtain ⟨ws, -, -, rfl⟩ := launch_some h
  exact (launchWords_keepsRegs capacity ws input r).trans (reg_reset r)

end Sys2Proof.Machine

/-!
PROOFS of the statements about the segment table's operations (20_memory.md R44-R48).
-/

namespace Sys2Proof.Machine

variable {s t : State}

/-! ## When each operation fails -/

/-- R45: MemRead of an id that is not live, or at or past the length. -/
theorem memRead_eq_error {id off : Word} (h : ∀ g, s.segment id = some g → g.len ≤ off.toNat) :
    memRead id off s = .error .invalidAccess := by
  cases hr : memRead id off s with
  | error k => rw [(memRead_error hr).1]
  | ok v =>
    obtain ⟨g, hg, hlt, -⟩ := memRead_ok hr
    exact absurd (h g hg) (Nat.not_le.mpr hlt)

/-- R46: MemWrite makes the checks of MemRead. -/
theorem memWrite_eq_error {id off : Word} (v : Word)
    (h : ∀ g, s.segment id = some g → g.len ≤ off.toNat) :
    memWrite id off v s = .error .invalidAccess := by
  cases hw : memWrite id off v s with
  | error k => rw [(memWrite_error hw).1]
  | ok t =>
    obtain ⟨g, hg, hlt, -⟩ := memWrite_ok hw
    exact absurd (h g hg) (Nat.not_le.mpr hlt)

/-- R44: SegUnmap of segment 0 or of an id that is not live. -/
theorem segUnmap_eq_error {id : Word} (h : id = 0#32 ∨ s.live id = false) :
    segUnmap id s = .error .invalidAccess := if_pos h

/-- R47: SegReplaceProgram of an id that is not live. -/
theorem segReplaceProgram_eq_error {id : Word} (h : s.segment id = none) :
    segReplaceProgram id s = .error .invalidAccess := by
  simp [segReplaceProgram, h]

/-- R47: SegReplaceProgram of segment 0 itself is a no-op. -/
theorem segReplaceProgram_zero {g : Segment} (hg : s.segment 0#32 = some g) :
    segReplaceProgram 0#32 s = .ok s := by
  simp [segReplaceProgram, hg]

/-! ## What each operation leaves as it was -/

theorem memWrite_keepsSegmentsBut {id off v : Word} (h : memWrite id off v s = .ok t) :
    KeepsSegmentsBut id s t := by
  obtain ⟨g, -, -, rfl⟩ := memWrite_ok h
  exact keepsSegmentsBut_setSegment s id _

theorem segUnmap_keepsSegmentsBut {id : Word} (h : segUnmap id s = .ok t) :
    KeepsSegmentsBut id s t := by
  obtain ⟨-, -, rfl⟩ := segUnmap_ok h
  exact keepsSegmentsBut_dropSegment s id

theorem segMap_keepsSegmentsBut {n id : Word} (h : segMap n s = .ok (id, t)) :
    KeepsSegmentsBut id s t := by
  obtain ⟨u, hu, -, rfl⟩ := segMap_ok h
  refine keepsSegmentsBut_of_segment fun j hj => ?_
  rw [segment_setSegment, if_neg hj, State.segment, takeId_seg hu, State.segment]

/-- R43: a map's new segment is all zeros. -/
theorem segMap_segWords {n id : Word} (h : segMap n s = .ok (id, t)) :
    t.segWords id = some (List.replicate n.toNat 0#32) := by
  obtain ⟨u, -, -, rfl⟩ := segMap_ok h
  simp [segWords_setSegment]

/-- R50 (2): the id freed last is the one the next map takes. -/
theorem segMap_after_segUnmap {id id' n : Word} {u : State} (hu : segUnmap id s = .ok t)
    (hm : segMap n t = .ok (id', u)) : id' = id := by
  obtain ⟨-, -, rfl⟩ := segUnmap_ok hu
  obtain ⟨w, hw, -, -⟩ := segMap_ok hm
  rw [takeId_of_free (setFree_free (s.dropSegment id) _)] at hw
  cases hw; rfl

/-! ## The obligations -/

/-- Settles O30: by whether the id is live and the offset below the length. -/
theorem memReadIndexesTheSegment : Obligations.MemReadIndexesTheSegment := by
  intro id off s
  cases hg : s.segment id with
  | none =>
    rw [segWords_eq_none.mpr hg, memRead_eq_error fun g hg' => by simp [hg] at hg']
  | some g =>
    rw [segWords_of_segment hg]
    rcases Nat.lt_or_ge off.toNat g.len with hlt | hle
    · have hws : off.toNat < (segmentWords g).length := by rwa [segmentWords_length]
      simp only [memRead_of_segment hg hlt, List.getElem?_eq_getElem hws, segmentWords_getElem]
    · have hws : (segmentWords g).length ≤ off.toNat := by rwa [segmentWords_length]
      have herr : memRead id off s = .error .invalidAccess :=
        memRead_eq_error fun g' hg' => by rwa [← Option.some.inj (hg.symm.trans hg')]
      simp only [herr, List.getElem?_eq_none hws]

/-- Settles O31: a write replaces one segment by `segmentPut`, whose list of words differs at `off`. -/
theorem memWriteReplacesOneWord : Obligations.MemWriteReplacesOneWord := by
  refine fun id off v s => ⟨fun ws hws hlt => ?_, ?_⟩
  · obtain ⟨g, hg, rfl⟩ := segWords_eq_some.mp hws
    rw [segmentWords_length] at hlt
    refine ⟨_, memWrite_of_segment v hg hlt, ?_, keepsSegmentsBut_setSegment s id _, ⟨rfl, rfl⟩,
      keepsRegs_of_x rfl, rfl, ⟨rfl, rfl⟩, rfl, rfl, rfl, rfl⟩
    rw [segWords_of_segment (segment_setSegment_same s id _), segmentWords_put]
  · rintro (hnone | ⟨ws, hws, hle⟩)
    · exact memWrite_eq_error v fun g hg => by simp [segWords_eq_none.mp hnone] at hg
    · exact memWrite_eq_error v fun g hg => segWords_length hg hws ▸ hle

/-- Settles O33: the freed id is the head of the free list, which is where the next map looks first. -/
theorem segUnmapReleasesAndPushesTheId : Obligations.SegUnmapReleasesAndPushesTheId := by
  refine fun id s => ⟨fun h0 hsome => ?_, fun h => ?_, fun t u n id' hu hm => ?_⟩
  · have hlive : s.live id = true := by
      simpa [State.live, Option.isSome_iff_ne_none] using mt segWords_eq_none.mpr hsome
    have hu := segUnmap_of_live h0 hlive
    exact ⟨_, hu, (segWords_dropSegment s id id).trans (if_pos rfl), rfl, rfl,
      segUnmap_keepsSegmentsBut hu⟩
  · exact segUnmap_eq_error (h.imp_right fun hnone => live_eq_false.mpr (segWords_eq_none.mp hnone))
  · obtain rfl := segMap_after_segUnmap hu hm
    exact ⟨rfl, segMap_segWords hm⟩

/-- Settles O34: segment 0 is set to the source's value, and no other segment is touched. -/
theorem segReplaceProgramCopiesIntoSegmentZero :
    Obligations.SegReplaceProgramCopiesIntoSegmentZero := by
  refine fun id s => ⟨fun hnone => segReplaceProgram_eq_error (segWords_eq_none.mp hnone),
    fun ws hws => ?_⟩
  obtain ⟨g, hg, rfl⟩ := segWords_eq_some.mp hws
  refine ⟨?_, fun h0 => ?_⟩
  · rintro rfl
    exact segReplaceProgram_zero hg
  · have hkeep := keepsSegmentsBut_setSegment s 0#32 g
    exact ⟨_, segReplaceProgram_of_segment h0 hg,
      segWords_of_segment (segment_setSegment_same s 0#32 g), (hkeep.1 id h0).trans hws, hkeep,
      rfl, rfl⟩

/-- Settles O35: segments are values, so that after the copy each operation still touches only the
segment it names. -/
theorem replacementIsACopyNotAnAlias : Obligations.ReplacementIsACopyNotAnAlias := by
  refine fun id s t h0 _ => ⟨fun off v u hw => ?_, fun u hu => ?_, fun off v u hw => ?_⟩
  · exact (memWrite_keepsSegmentsBut hw).1 0#32 h0.symm
  · have hfreed := (segUnmap_keepsSegmentsBut hu).1 0#32 h0.symm
    exact ⟨hfreed, fun n u' hm => ((segMap_keepsSegmentsBut hm).1 0#32 h0.symm).trans hfreed⟩
  · exact (memWrite_keepsSegmentsBut hw).1 id h0

end Sys2Proof.Machine

/-!
PROOFS of the statements about the encoding (30_encoding.md R74, R80).
-/

namespace Sys2Proof

/-! ## The encoder's formulas -/

/-- The `|||` of two words adds their numbers where the second fits into low bits the first has clear. -/
theorem toNat_or_eq_add {w v : Word} {x y n : Nat} (hw : w.toNat = x) (hv : v.toNat = y)
    (hx : 2 ^ n ∣ x) (hy : y < 2 ^ n) : (w ||| v).toNat = x + y := by
  obtain ⟨k, rfl⟩ := hx
  rw [BitVec.toNat_or, hw, hv, Nat.two_pow_add_eq_or_of_lt hy]

/-- A register field placed at bit `n`, none of its three bits shifted out. -/
theorem toNat_regBits (r : RegIdx) {n : Nat} (hn : n ≤ 29) :
    (BitVec.ofNat 32 r.val <<< n).toNat = r.val * 2 ^ n := by
  have hr : r.val % 2 ^ 32 = r.val := Nat.mod_eq_of_lt (by omega)
  have hlt : r.val * 2 ^ n < 2 ^ 32 := calc
    r.val * 2 ^ n < 2 ^ 3 * 2 ^ 29 :=
      Nat.mul_lt_mul_of_lt_of_le r.isLt (Nat.pow_le_pow_right (by decide) hn) (by decide)
    _ = 2 ^ 32 := by decide
  rw [BitVec.toNat_shiftLeft, BitVec.toNat_ofNat, hr, Nat.shiftLeft_eq, Nat.mod_eq_of_lt hlt]

/-- The opcode field in its place, bits 31:28. -/
theorem toNat_opBits (op : BitVec 4) : (op.setWidth 32 <<< 28).toNat = op.toNat * 2 ^ 28 := by
  rw [BitVec.toNat_shiftLeft, BitVec.toNat_setWidth_of_le (by decide), Nat.shiftLeft_eq,
    Nat.mod_eq_of_lt (by omega)]

/-- R80: the formula of the three-register word, its fields added from the highest down. -/
theorem toNat_enc3 (op : BitVec 4) (a b c : RegIdx) :
    (enc3 op a b c).toNat = op.toNat * 2 ^ 28 + a.val * 2 ^ 6 + b.val * 2 ^ 3 + c.val := by
  have hc : (BitVec.ofNat 32 c.val).toNat = c.val := by simpa using toNat_regBits c (Nat.zero_le 29)
  have hoa := toNat_or_eq_add (n := 28) (toNat_opBits op) (toNat_regBits a (by decide : 6 ≤ 29))
    (by omega) (by omega)
  have hoab := toNat_or_eq_add (n := 6) hoa (toNat_regBits b (by decide : 3 ≤ 29))
    (by omega) (by omega)
  exact toNat_or_eq_add (n := 3) hoab hc (by omega) c.isLt

/-- R80: the formula of the load-immediate word. -/
theorem toNat_encI (a : RegIdx) (imm : BitVec 25) :
    (encI a imm).toNat = 13 * 2 ^ 28 + a.val * 2 ^ 25 + imm.toNat := by
  have himm : (imm.setWidth 32).toNat = imm.toNat := BitVec.toNat_setWidth_of_le (by decide)
  have hoa := toNat_or_eq_add (n := 28) (toNat_opBits 13#4) (toNat_regBits a (by decide : 25 ≤ 29))
    (by decide) (by omega)
  exact toNat_or_eq_add (n := 25) hoa himm (by omega) imm.isLt

/-! ## The round trip through the decoder -/

/-- R74, R80: a three-register word of an opcode other than 13 gives back its fields. -/
theorem decode_enc3 {op : BitVec 4} (hop : op ≠ 13#4) (a b c : RegIdx) :
    decode (enc3 op a b c) =
      if op.toNat ≤ 12 then Decoded.threeReg op a b c else Decoded.invalid op a b c := by
  have hle : op ≤ 12#4 ↔ op.toNat ≤ 12 := Iff.rfl
  simp only [decode, opField_enc3, aField_enc3, bField_enc3, cField_enc3, if_neg hop, hle]

/-- R74, R80: a load-immediate word gives back its register and its immediate. -/
theorem decode_encI (a : RegIdx) (imm : BitVec 25) :
    decode (encI a imm) = Decoded.loadImm a imm := by
  rw [decode, if_pos (opField_encI a imm), aImmField_encI, immField_encI]

/-- R80: the assembler refuses an immediate of more than 25 bits, and only that. -/
theorem assemble_loadi (a : RegIdx) (v : Nat) :
    assemble (.loadi a v) = if v < 2 ^ 25 then some (encI a (BitVec.ofNat 25 v)) else none := by
  simp only [assemble, WellFormed, encode, decide_eq_true_eq]

/-- Settles O1: the formulas because no two fields of a word overlap, the round trips field by field. -/
theorem decoderRecoversWhatTheEncoderPacked : Obligations.DecoderRecoversWhatTheEncoderPacked :=
  ⟨fun op a b c hop => ⟨toNat_enc3 op a b c, decode_enc3 hop a b c⟩,
    fun a imm => ⟨toNat_encI a imm, decode_encI a imm⟩, assemble_loadi⟩

end Sys2Proof

/-!
PROOFS of the statements about conditional move, segmented load and store (41_move_memory.md).
-/

namespace Sys2Proof.Machine

/-- Writing a register's own value back leaves the state as it was. -/
theorem setReg_reg_self (s : State) (a : RegIdx) : s.setReg a (s.reg a) = s := by
  simp [State.setReg, State.reg]

/-- R100 as one register write: a condition of 0 writes back what `x[a]` held. -/
theorem exec_cmov (a b c : RegIdx) (s : State) :
    exec (.cmov a b c) s =
      .next ((s.setReg a (if s.reg c = 0#32 then s.reg a else s.reg b)).advance) := by
  change execCmov a b c s = _
  by_cases hc : s.reg c = 0#32
  · simp [execCmov, moves, hc, setReg_reg_self]
  · simp [execCmov, moves, hc]

/-- Settles O15: either way the step is one register write and the advance of the pc. -/
theorem conditionalMoveCopiesOnNonZero : Obligations.ConditionalMoveCopiesOnNonZero := by
  refine fun a b c s => ⟨_, exec_cmov a b c s, fun hc => ?_, fun hc => ?_, writesOnly_setReg s a _⟩
  · rw [if_neg hc, reg_advance, reg_setReg_same]
  · rw [if_pos hc, reg_advance, reg_setReg_same]

end Sys2Proof.Machine

/-!
PROOFS of the statements about add, multiply and nand (42_arithmetic.md).
-/

namespace Sys2Proof.Machine

/-! ## The words computed -/

/-- R111: the sum as a number. -/
theorem toNat_wordAdd (v w : Word) : (wordAdd v w).toNat = (v.toNat + w.toNat) % 2 ^ 32 :=
  BitVec.toNat_ofNat _ 32

/-- R112: the product as a number. -/
theorem toNat_wordMul (v w : Word) : (wordMul v w).toNat = (v.toNat * w.toNat) % 2 ^ 32 :=
  BitVec.toNat_ofNat _ 32

/-- R114: each bit of the complement, the bound keeping to the bits the word has. -/
theorem getLsbD_wordNand (v w : Word) {i : Nat} (hi : i < 32) :
    (wordNand v w).getLsbD i = !(v.getLsbD i && w.getLsbD i) := by
  rw [wordNand, BitVec.getLsbD_not, BitVec.getLsbD_and, decide_eq_true hi, Bool.true_and]

/-! ## The instructions as one register write -/

theorem exec_add (a b c : RegIdx) (s : State) :
    exec (.add a b c) s = .next ((s.setReg a (wordAdd (s.reg b) (s.reg c))).advance) := rfl

theorem exec_mul (a b c : RegIdx) (s : State) :
    exec (.mul a b c) s = .next ((s.setReg a (wordMul (s.reg b) (s.reg c))).advance) := rfl

theorem exec_nand (a b c : RegIdx) (s : State) :
    exec (.nand a b c) s = .next ((s.setReg a (wordNand (s.reg b) (s.reg c))).advance) := rfl

/-- Settles O18: the register written holds `wordAdd` of the old values. -/
theorem addWritesTheSumModulo : Obligations.AddWritesTheSumModulo := by
  refine fun a b c s => ⟨_, exec_add a b c s, ?_, writesOnly_setReg s a _⟩
  rw [reg_advance, reg_setReg_same, toNat_wordAdd]

/-- Settles O19: the register written holds `wordMul` of the old values. -/
theorem multiplyWritesTheProductModulo : Obligations.MultiplyWritesTheProductModulo := by
  refine fun a b c s => ⟨_, exec_mul a b c s, ?_, writesOnly_setReg s a _⟩
  rw [reg_advance, reg_setReg_same, toNat_wordMul]

/-- Settles O21: the register written holds `wordNand` of the old values. -/
theorem nandWritesTheComplementOfTheAnd : Obligations.NandWritesTheComplementOfTheAnd := by
  refine fun a b c s => ⟨_, exec_nand a b c s, fun i hi => ?_, writesOnly_setReg s a _⟩
  rw [reg_advance, reg_setReg_same, getLsbD_wordNand _ _ hi]

end Sys2Proof.Machine

/-!
PROOFS of the statement about halt (43_halt_segments.md R120).
-/

namespace Sys2Proof

/-- R71: the opcode field as a number, the top four bits of the word. -/
theorem toNat_opField (w : Word) : (opField w).toNat = w.toNat / 2 ^ 28 := by
  rw [opField, BitVec.extractLsb'_toNat, Nat.shiftRight_eq_div_pow, Nat.mod_eq_of_lt (by omega)]

/-- R74: a word of an opcode up to 12 is of the three-register shape, whatever its other bits. -/
theorem decode_of_opField_le {w : Word} (h : opField w ≤ 12#4) :
    decode w = .threeReg (opField w) (aField w) (bField w) (cField w) := by
  have hne : opField w ≠ 13#4 := fun he => absurd (he ▸ h) (by decide)
  rw [decode, if_neg hne, if_pos h]

/-- R75, R120: opcode 7 selects halt, which reads no operand field. -/
theorem decodeInstr_of_opField_seven {w : Word} (h : opField w = 7#4) :
    decodeInstr w = some .halt := by
  have hle : opField w ≤ 12#4 := h ▸ by decide
  rw [decodeInstr, decode_of_opField_le hle, h]
  rfl

end Sys2Proof

namespace Sys2Proof.Machine

theorem exec_halt (s : State) : exec .halt s = .next s.halt := rfl

/-- Settles O22: the opcode field of such a word is 7, and the step is `State.halt`, which sets the
run state alone. -/
theorem haltEndsTheRunAndKeepsAllElse : Obligations.HaltEndsTheRunAndKeepsAllElse := by
  refine ⟨fun w hw => ?_, fun s => ?_⟩
  · have hop : opField w = 7#4 := BitVec.eq_of_toNat_eq ((toNat_opField w).trans hw)
    exact decodeInstr_of_opField_seven hop
  · exact ⟨s.halt, exec_halt s, halt_runState s, halt_pc s, halt_fault s, halt_refused s,
      halt_capacityWords s, reg_halt s,
      keepsSegments_of_seg (halt_seg s) (halt_nextId s) (halt_free s), halt_out s, halt_inp s⟩

end Sys2Proof.Machine

/-!
PROOFS of the statement about load immediate (45_program_immediate.md R141).
-/

namespace Sys2Proof.Machine

/-- R76: an immediate that fits in 25 bits keeps its value as a word, neither scaled nor shifted. -/
theorem toNat_immWord {imm : Nat} (himm : imm < 2 ^ 25) : (immWord imm).toNat = imm := by
  rw [immWord, BitVec.toNat_setWidth_of_le (by decide), BitVec.toNat_ofNat, Nat.mod_eq_of_lt himm]

theorem exec_loadi (a : RegIdx) (imm : Nat) (s : State) :
    exec (.loadi a imm) s = .next ((s.setReg a (immWord imm)).advance) := rfl

/-- Settles O29: the register written holds `immWord` of the immediate. -/
theorem loadImmediateZeroExtends : Obligations.LoadImmediateZeroExtends := by
  refine fun a imm s himm => ⟨_, exec_loadi a imm s, ?_, writesOnly_setReg s a _⟩
  rw [reg_advance, reg_setReg_same, toNat_immWord himm]

end Sys2Proof.Machine

/-!
PROOFS of the statement about loading the program image (70_reset_and_hazards.md R181).
-/

namespace Sys2Proof.Machine

/-! ## One word of four bytes -/

/-- `++` of bit vectors as a number: the left part's places lie above all of the right part. -/
theorem toNat_append_eq_add {m n : Nat} (x : BitVec m) (y : BitVec n) :
    (x ++ y).toNat = x.toNat * 2 ^ n + y.toNat := by
  rw [BitVec.toNat_append, ← Nat.shiftLeft_add_eq_or_of_lt y.isLt, Nat.shiftLeft_eq]

/-- R181: the word of four bytes as a number. -/
theorem toNat_bigEndianWord (b0 b1 b2 b3 : Byte) :
    (bigEndianWord b0 b1 b2 b3).toNat =
      b0.toNat * 2 ^ 24 + b1.toNat * 2 ^ 16 + b2.toNat * 2 ^ 8 + b3.toNat := by
  simp only [bigEndianWord, toNat_append_eq_add]
  omega

/-! ## The words of an image -/

theorem imageWords_cons (b0 b1 b2 b3 : Byte) (rest : List Byte) :
    imageWords (b0 :: b1 :: b2 :: b3 :: rest) =
      (imageWords rest).map (bigEndianWord b0 b1 b2 b3 :: ·) := rfl

/-- R182: four bytes make one word, and a length that is a multiple of 4 is no load-time error. -/
theorem imageWords_of_length {image : List Byte} {n : Nat} (h : image.length = 4 * n) :
    ∃ ws, imageWords image = some ws ∧ ws.length = n := by
  induction image using imageWords.induct generalizing n with
  | case1 =>
    rw [List.length_nil] at h
    exact ⟨[], rfl, by rw [List.length_nil]; omega⟩
  | case2 b0 b1 b2 b3 rest ih =>
    simp only [List.length_cons] at h
    obtain ⟨ws, hws, hlen⟩ := ih (n := n - 1) (by omega)
    refine ⟨bigEndianWord b0 b1 b2 b3 :: ws, by rw [imageWords_cons, hws]; rfl, ?_⟩
    rw [List.length_cons, hlen]
    omega
  | case3 | case4 | case5 =>
    simp only [List.length_cons, List.length_nil] at h
    omega

/-- R181: word `k` is made of the bytes from `4 * k` on, in order. -/
theorem imageWords_getElem? {image : List Byte} {ws : List Word} (hws : imageWords image = some ws)
    {k : Nat} {b0 b1 b2 b3 : Byte} (h0 : image[4 * k]? = some b0)
    (h1 : image[4 * k + 1]? = some b1) (h2 : image[4 * k + 2]? = some b2)
    (h3 : image[4 * k + 3]? = some b3) : ws[k]? = some (bigEndianWord b0 b1 b2 b3) := by
  induction image using imageWords.induct generalizing ws k with
  | case1 => cases h0
  | case2 c0 c1 c2 c3 rest ih =>
    rw [imageWords_cons, Option.map_eq_some_iff] at hws
    obtain ⟨ws', hws', rfl⟩ := hws
    cases k with
    | zero => cases h0; cases h1; cases h2; cases h3; rfl
    | succ k => exact ih hws' h0 h1 h2 h3
  | case3 | case4 | case5 => cases hws

/-! ## The launch of an image -/

/-- R183: when a launch is not a load-time error. -/
theorem launch_of_imageWords {image : List Byte} {ws : List Word} (capacity : Option Nat)
    (input : List Byte) (hws : imageWords image = some ws)
    (hlen : ws.length ≤ Config.maxSegmentWords) :
    launch capacity image input = some (launchWords capacity ws input) := by
  simp only [launch, hws, if_pos hlen]

/-- R180: segment 0 holds the program's words. -/
theorem segWords_launchWords_zero (capacity : Option Nat) (ws : List Word) (input : List Byte) :
    (launchWords capacity ws input).segWords 0#32 = some ws := by
  have hseg : (launchWords capacity ws input).segment 0#32 = some (segmentOfWords ws) := rfl
  rw [segWords_of_segment hseg, segmentWords_segmentOfWords]

/-- Settles O49: `imageWords` turns each four bytes into their `bigEndianWord`, and the launch makes
those words segment 0. -/
theorem imageIsReadAsBigEndianWords : Obligations.ImageIsReadAsBigEndianWords := by
  intro capacity image input n himage hn
  obtain ⟨ws, hws, rfl⟩ := imageWords_of_length himage
  refine ⟨_, ws, launch_of_imageWords capacity input hws hn,
    segWords_launchWords_zero capacity ws input, rfl, fun k b0 b1 b2 b3 h0 h1 h2 h3 => ?_⟩
  exact ⟨_, imageWords_getElem? hws h0 h1 h2 h3, toNat_bigEndianWord b0 b1 b2 b3⟩

end Sys2Proof.Machine

/-!
PROOFS of the statements about the decoder on every word (30_encoding.md R70-R80).
-/

namespace Sys2Proof

/-! ## The fields as numbers -/

/-- R72, R73: three bits of a word from bit `n` on, as a register index. -/
theorem regField_eq_ofNat (w : Word) (n : Nat) :
    (w.extractLsb' n 3).toFin = Fin.ofNat 8 (w.toNat / 2 ^ n) := by
  apply Fin.ext
  change (w.extractLsb' n 3).toNat = w.toNat / 2 ^ n % 8
  rw [BitVec.extractLsb'_toNat, Nat.shiftRight_eq_div_pow]

theorem aField_eq_ofNat (w : Word) : aField w = Fin.ofNat 8 (w.toNat / 2 ^ 6) :=
  regField_eq_ofNat w 6

theorem bField_eq_ofNat (w : Word) : bField w = Fin.ofNat 8 (w.toNat / 2 ^ 3) :=
  regField_eq_ofNat w 3

theorem cField_eq_ofNat (w : Word) : cField w = Fin.ofNat 8 w.toNat := by
  rw [← Nat.div_one w.toNat]; exact regField_eq_ofNat w 0

theorem aImmField_eq_ofNat (w : Word) : aImmField w = Fin.ofNat 8 (w.toNat / 2 ^ 25) :=
  regField_eq_ofNat w 25

theorem toNat_immField (w : Word) : (immField w).toNat = w.toNat % 2 ^ 25 := by
  rw [immField, BitVec.extractLsb'_toNat, Nat.shiftRight_zero]

/-- R71: the opcode field, given as a number. -/
theorem opField_eq_iff (w : Word) (op : BitVec 4) : opField w = op ↔ w.toNat / 2 ^ 28 = op.toNat := by
  rw [← toNat_opField]
  exact ⟨congrArg _, BitVec.eq_of_toNat_eq⟩

/-! ## Each register field depends on the low bits up to its own -/

theorem aField_congr {v w : Word} (h : v.toNat % 2 ^ 9 = w.toNat % 2 ^ 9) : aField v = aField w := by
  simp only [aField_eq_ofNat, Fin.ext_iff, Fin.val_ofNat]; omega

theorem bField_congr {v w : Word} (h : v.toNat % 2 ^ 6 = w.toNat % 2 ^ 6) : bField v = bField w := by
  simp only [bField_eq_ofNat, Fin.ext_iff, Fin.val_ofNat]; omega

theorem cField_congr {v w : Word} (h : v.toNat % 2 ^ 3 = w.toNat % 2 ^ 3) : cField v = cField w := by
  simp only [cField_eq_ofNat, Fin.ext_iff, Fin.val_ofNat]; omega

/-! ## The decoder by opcode -/

/-- R74: a word of an opcode up to 12 has the three-register shape. -/
theorem decode_of_opcode_le {w : Word} (h : w.toNat / 2 ^ 28 ≤ 12) :
    decode w = .threeReg (opField w) (aField w) (bField w) (cField w) :=
  decode_of_opField_le (BitVec.le_def.mpr (by rw [toNat_opField]; exact h))

/-- R74: a word of opcode 13 has the load-immediate shape. -/
theorem decode_of_opcode_thirteen {w : Word} (h : w.toNat / 2 ^ 28 = 13) :
    decode w = .loadImm (aImmField w) (immField w) :=
  if_pos ((opField_eq_iff w 13#4).mpr h)

/-- R79: a word of opcode 14 or 15 decodes to `Invalid`. -/
theorem decode_of_opcode_ge {w : Word} (h : 14 ≤ w.toNat / 2 ^ 28) :
    decode w = .invalid (opField w) (aField w) (bField w) (cField w) := by
  have hne : opField w ≠ 13#4 := fun he => by
    have h13 : w.toNat / 2 ^ 28 = 13 := (opField_eq_iff w 13#4).mp he
    omega
  have hnle : ¬opField w ≤ 12#4 := fun hle => by
    have h12 : (opField w).toNat ≤ 12 := BitVec.le_def.mp hle
    rw [toNat_opField] at h12
    omega
  rw [decode, if_neg hne, if_neg hnle]

/-- R75: what a word of the three-register shape selects, by its opcode as a number. -/
theorem decodeInstr_of_opcode_le {w : Word} {n : Nat} (h : w.toNat / 2 ^ 28 = n) (hn : n ≤ 12) :
    decodeInstr w =
      selectInstr (.threeReg (BitVec.ofNat 4 n) (aField w) (bField w) (cField w)) := by
  subst h
  rw [decodeInstr, decode_of_opcode_le hn, ← toNat_opField, BitVec.ofNat_toNat, BitVec.setWidth_eq]

theorem decodeInstr_of_opcode_thirteen {w : Word} (h : w.toNat / 2 ^ 28 = 13) :
    decodeInstr w = some (.loadi (aImmField w) (immField w).toNat) := by
  rw [decodeInstr, decode_of_opcode_thirteen h]; rfl

/-- R79: opcodes 14 and 15 stand for no instruction. -/
theorem decodeInstr_of_opcode_ge {w : Word} (h : 14 ≤ w.toNat / 2 ^ 28) : decodeInstr w = none := by
  rw [decodeInstr, decode_of_opcode_ge h]; rfl

/-- R74, R80: a three-register word of a defined opcode selects by the opcode it was made with. -/
theorem decodeInstr_enc3 {op : BitVec 4} (h : op ≤ 12#4) (a b c : RegIdx) :
    decodeInstr (enc3 op a b c) = selectInstr (.threeReg op a b c) := by
  have hne : op ≠ 13#4 := fun he => absurd (he ▸ h) (by decide)
  have hle : op.toNat ≤ 12 := BitVec.le_def.mp h
  rw [decodeInstr, decode_enc3 hne, if_pos hle]

/-! ## The obligations -/

/-- Settles O2: the encoder's fields come back from the decoder, and the instruction that was encoded
is the one their opcode selects; an immediate of 25 bits survives the field. -/
theorem decodeOfEncodeIsTheInstruction : Obligations.DecodeOfEncodeIsTheInstruction := by
  intro i hi
  cases i with
  | loadi a imm =>
    have himm : imm < 2 ^ 25 := of_decide_eq_true hi
    rw [encode, decodeInstr, decode_encI, selectInstr, BitVec.toNat_ofNat, Nat.mod_eq_of_lt himm]
  | _ => exact decodeInstr_enc3 (by decide) _ _ _

/-- Settles O3: by the opcode, which is below 16: up to 12, 13, or undefined. -/
theorem everyWordDecodesByItsOpcode : Obligations.EveryWordDecodesByItsOpcode := by
  intro w
  have hlt : w.toNat / 2 ^ 28 < 16 := by omega
  rcases Nat.lt_trichotomy (w.toNat / 2 ^ 28) 13 with h | h | h
  · rw [decodeInstr_of_opcode_le rfl (by omega), aField_eq_ofNat, bField_eq_ofNat, cField_eq_ofNat]
    generalize w.toNat / 2 ^ 28 = n at h
    interval_cases n <;> rfl
  · rw [decodeInstr_of_opcode_thirteen h, aImmField_eq_ofNat, toNat_immField, h]; rfl
  · rw [decodeInstr_of_opcode_ge h]
    generalize w.toNat / 2 ^ 28 = n at h hlt
    interval_cases n <;> rfl

/-- Settles O4: the instruction depends on the opcode and on the fields it uses, and each field on the
low bits up to its own. -/
theorem ignoredBitsNeverChangeTheInstruction : Obligations.IgnoredBitsNeverChangeTheInstruction := by
  refine fun v w hop => ⟨fun hle h9 => ?_, fun h => ?_, fun h h6 => ?_, fun h h3 => ?_⟩
  · rw [decodeInstr_of_opcode_le hop hle, decodeInstr_of_opcode_le rfl hle, aField_congr h9,
      bField_congr (w := w) (by omega), cField_congr (w := w) (by omega)]
  · rw [decodeInstr_of_opcode_le (hop.trans h) (by decide), decodeInstr_of_opcode_le h (by decide)]
    rfl
  · rw [decodeInstr_of_opcode_le hop (by omega), decodeInstr_of_opcode_le rfl (by omega),
      bField_congr h6, cField_congr (w := w) (by omega)]
    rcases h with h | h <;> rw [h] <;> rfl
  · rw [decodeInstr_of_opcode_le hop (by omega), decodeInstr_of_opcode_le rfl (by omega),
      cField_congr h3]
    rcases h with h | h | h <;> rw [h] <;> rfl

/-- Settles O5: the decoder evaluated on each word. -/
theorem sampleWordsDecodeAsListed : Obligations.SampleWordsDecodeAsListed := by
  unfold Obligations.SampleWordsDecodeAsListed
  decide

end Sys2Proof

/-!
PROOFS of the statements about fetch, decode and dispatch (40_execution_engine.md R90-R95).
-/

namespace Sys2Proof.Machine

variable {s t : State}

/-! ## What the fetch answers -/

theorem fetchWord_of_segment {g : Segment} (hg : s.segment 0#32 = some g)
    (h : s.pc.toNat < g.len) : fetchWord s = .ok (segmentGet g s.pc.toNat) := by
  simp [fetchWord, hg, h]

/-- R91: the word at the pc, of segment 0 as a list of words. -/
theorem fetchWord_of_segWords {ws : List Word} {w : Word} (hws : s.segWords 0#32 = some ws)
    (hw : ws[s.pc.toNat]? = some w) : fetchWord s = .ok w := by
  obtain ⟨g, hg, rfl⟩ := segWords_eq_some.mp hws
  obtain ⟨hlt, rfl⟩ := List.getElem?_eq_some_iff.mp hw
  rw [segmentWords_getElem, fetchWord_of_segment hg (by rwa [segmentWords_length] at hlt)]

/-- R91: a pc at or past the length segment 0 has at this moment. -/
theorem fetchWord_past_end {ws : List Word} (hws : s.segWords 0#32 = some ws)
    (hle : ws.length ≤ s.pc.toNat) : fetchWord s = .error .invalidInstruction := by
  cases hf : fetchWord s with
  | error k => rw [(fetchWord_error hf).1]
  | ok w =>
    obtain ⟨g, hg, hlt, -⟩ := fetchWord_ok hf
    exact absurd (segWords_length hg hws ▸ hle) (Nat.not_le.mpr hlt)

theorem fetchInstr_of_decodeInstr {w : Word} {i : Instr} (hw : fetchWord s = .ok w)
    (hi : decodeInstr w = some i) : fetchInstr s = .ok i := by
  simp [fetchInstr, hw, hi]

/-- R79, R92: a word that stands for no instruction. -/
theorem fetchInstr_of_undefined {w : Word} (hw : fetchWord s = .ok w)
    (hi : decodeInstr w = none) : fetchInstr s = .error .invalidInstruction := by
  simp [fetchInstr, hw, hi]

theorem fetchInstr_of_fetchWord_error {k : FaultKind} (hw : fetchWord s = .error k) :
    fetchInstr s = .error k := by
  simp [fetchInstr, hw]

/-! ## What the step answers -/

/-- R90: with an instruction fetched, the step is its meaning. -/
theorem step_of_fetchInstr {i : Instr} (hs : s.canStep) (hi : fetchInstr s = .ok i) :
    step s = exec i s := by
  simp [step, stopped_none.mpr hs, hi]

/-- R90: a fetch that fails is raised. -/
theorem step_of_fetchInstr_error {k : FaultKind} (hs : s.canStep) (hk : fetchInstr s = .error k) :
    step s = .next (s.raise k) := by
  simp [step, stopped_none.mpr hs, hk]

/-- R167, D26: a marked state is answered by its refusal. -/
theorem step_of_refused {m : RefusalMark} (h : s.refused = some m) :
    step s = .refused (refusalOf m) := by
  simp [step, stopped, h]

/-- R95: Halted is terminal. -/
theorem step_of_halted (hr : s.refused = none) (h : s.runState = .halted) :
    step s = .fault .alreadyHalted := by
  simp [step, stopped, hr, h]

/-- R95: Faulted is terminal. -/
theorem step_of_faulted (hr : s.refused = none) (h : s.runState = .faulted) :
    step s = .fault .alreadyFaulted := by
  simp [step, stopped, hr, h]

/-- R152: a fetch that fails makes a step that raises. -/
theorem step_raises_of_fetchInstr_error {k : FaultKind} (hs : s.canStep)
    (hk : fetchInstr s = .error k) : ∃ t, step s = .next t ∧ Raises k s t :=
  ⟨_, step_of_fetchInstr_error hs hk, raises_raise s k⟩

/-! ## The test device -/

/-- `placeWord` writes one word of a segment 0 that is long enough for it, whatever it was before. -/
theorem placeWord_eq_setSegment (s : State) (off : Nat) (w : Word) :
    ∃ g, off < g.len ∧ placeWord s off w = s.setSegment 0#32 (segmentPut g off w) := by
  cases hg : s.segment 0#32 with
  | none => exact ⟨zeroSegment (off + 1), Nat.lt_succ_self off, by simp only [placeWord, hg]⟩
  | some g =>
    exact ⟨{ g with len := max g.len (off + 1) }, Nat.le_max_right g.len (off + 1),
      by simp only [placeWord, hg]⟩

/-- The word placed at the pc is the one fetched. -/
theorem fetchWord_withFetchWord (s : State) (nbits w : Nat) :
    fetchWord (s.withFetchWord nbits w) = .ok (BitVec.ofNat 32 (w % 2 ^ nbits)) := by
  obtain ⟨g, hlt, hplace⟩ :=
    placeWord_eq_setSegment s s.pc.toNat (BitVec.ofNat 32 (w % 2 ^ nbits))
  have hpc : (s.withFetchWord nbits w).pc = s.pc := by
    change (placeWord _ _ _).pc = _
    rw [hplace, setSegment_pc]
  have hseg : (s.withFetchWord nbits w).segment 0#32 =
      some (segmentPut g s.pc.toNat (BitVec.ofNat 32 (w % 2 ^ nbits))) := by
    change (placeWord _ _ _).segment _ = _
    rw [hplace, segment_setSegment_same]
  rw [fetchWord_of_segment hseg (by rwa [hpc, segmentPut_len]), hpc, segmentGet_put, if_pos rfl]

/-! ## The obligations -/

/-- Settles O6: the decoder gives such a word the `Invalid` shape, which selects no instruction, and
every other opcode selects one. -/
theorem undefinedOpcodesRaiseInvalidInstruction :
    Obligations.UndefinedOpcodesRaiseInvalidInstruction := by
  refine ⟨fun w hw => ⟨⟨_, _, _, _, decode_of_opcode_ge hw⟩, fun s ws hs hws hword => ?_⟩,
    fun w hw => ?_⟩
  · exact step_raises_of_fetchInstr_error hs
      (fetchInstr_of_undefined (fetchWord_of_segWords hws hword) (decodeInstr_of_opcode_ge hw))
  · rw [everyWordDecodesByItsOpcode w]
    generalize w.toNat / 2 ^ 28 = n at hw
    interval_cases n <;> exact ⟨_, rfl⟩

/-- Settles O7: the fetch gives the word, and the decoder its instruction. -/
theorem stepRunsTheDecodedInstruction : Obligations.StepRunsTheDecodedInstruction :=
  fun _ _ _ _ hs hws hw hi =>
    step_of_fetchInstr hs (fetchInstr_of_decodeInstr (fetchWord_of_segWords hws hw) hi)

/-- Settles O8: the placed state can step, and fetches the word placed. -/
theorem placedInstructionIsRunNext : Obligations.PlacedInstructionIsRunNext :=
  fun s w _ hi =>
    step_of_fetchInstr ⟨rfl, rfl⟩ (fetchInstr_of_decodeInstr (fetchWord_withFetchWord s 32 w) hi)

/-- Settles O9: on each side of the bound. -/
theorem fetchChecksTheCurrentLength : Obligations.FetchChecksTheCurrentLength := by
  refine fun s ws hws => ⟨fun hs hle => ?_, fun hlt => ?_⟩
  · exact step_raises_of_fetchInstr_error hs
      (fetchInstr_of_fetchWord_error (fetchWord_past_end hws hle))
  · exact fetchWord_of_segWords hws (List.getElem?_eq_getElem hlt)

/-- Settles O11: the refusal of each mark. -/
theorem refusedStateHasNoSuccessor : Obligations.RefusedStateHasNoSuccessor :=
  fun _ => ⟨step_of_refused, step_of_refused⟩

end Sys2Proof.Machine

/-!
PROOFS of the statements about the instructions that use the segment table, divide, and the ports
(41_move_memory.md, 42_arithmetic.md R113, 43_halt_segments.md, 44_io.md, 45_program_immediate.md).
-/

namespace Sys2Proof.Machine

variable {s t u : State}

/-! ## Reading and writing words, of segments as lists -/

/-- R45: MemRead of a word that is there. -/
theorem memRead_of_segWords {id off v : Word} {ws : List Word} (hws : s.segWords id = some ws)
    (hv : ws[off.toNat]? = some v) : memRead id off s = .ok v := by
  rw [memReadIndexesTheSegment id off s, hws]
  simp only [hv]

/-- R45, R46: what the statements say of an address that is not there, for the checks of the model. -/
theorem len_le_of_segWords {id : Word} {n : Nat}
    (h : s.segWords id = none ∨ ∃ ws, s.segWords id = some ws ∧ ws.length ≤ n) :
    ∀ g, s.segment id = some g → g.len ≤ n := by
  intro g hg
  rcases h with hnone | ⟨ws, hws, hle⟩
  · simp [segWords_eq_none.mp hnone] at hg
  · exact segWords_length hg hws ▸ hle

theorem live_of_segWords_ne_none {id : Word} (h : s.segWords id ≠ none) : s.live id = true := by
  simpa [State.live, Option.isSome_iff_ne_none] using mt segWords_eq_none.mpr h

/-- Settles O32: a write puts one word into one segment, and a read at the other addresses finds the
segment, its length and the word it found before. -/
theorem readReturnsTheLatestWrite : Obligations.ReadReturnsTheLatestWrite := by
  intro id off v s t h
  obtain ⟨g, hg, hlt, ht⟩ := memWrite_ok h
  have hseg : t.segment id = some (segmentPut g off.toNat v) := by
    rw [ht, segment_setSegment_same]
  refine ⟨?_, fun j o hne => ?_⟩
  · rw [memRead_of_segment hseg (by rwa [segmentPut_len]), segmentGet_put, if_pos rfl]
  · by_cases hj : j = id
    · subst hj
      have ho : o.toNat ≠ off.toNat := fun e => hne ⟨rfl, BitVec.eq_of_toNat_eq e⟩
      simp only [memRead, hseg, hg, segmentPut_len, segmentGet_put, if_neg ho]
    · exact (memWrite_keepsSegmentsBut h).2 j o hj

/-! ## Segmented load and store -/

theorem exec_sload_ok {a b c : RegIdx} {v : Word} (h : memRead (s.reg b) (s.reg c) s = .ok v) :
    exec (.sload a b c) s = .next ((s.setReg a v).advance) := by
  change execSload a b c s = _
  rw [execSload, h]; rfl

theorem exec_sload_error (a : RegIdx) {b c : RegIdx} {k : FaultKind}
    (h : memRead (s.reg b) (s.reg c) s = .error k) : exec (.sload a b c) s = .next (s.raise k) := by
  change execSload a b c s = _
  rw [execSload, h]; rfl

theorem exec_sstore_ok {a b c : RegIdx} (h : memWrite (s.reg a) (s.reg b) (s.reg c) s = .ok t) :
    exec (.sstore a b c) s = .next t.advance := by
  change execSstore a b c s = _
  rw [execSstore, h]; rfl

theorem exec_sstore_error {a b c : RegIdx} {k : FaultKind}
    (h : memWrite (s.reg a) (s.reg b) (s.reg c) s = .error k) :
    exec (.sstore a b c) s = .next (s.raise k) := by
  change execSstore a b c s = _
  rw [execSstore, h]; rfl

/-- Settles O16: MemRead's answer decides between the register write and the fault. -/
theorem segmentedLoadReadsOneWord : Obligations.SegmentedLoadReadsOneWord := by
  refine fun a b c s => ⟨fun ws v hws hv => ?_, fun h => ?_⟩
  · exact ⟨_, exec_sload_ok (memRead_of_segWords hws hv), reg_setReg_same s a v,
      writesOnly_setReg s a v⟩
  · exact ⟨_, exec_sload_error a (memRead_eq_error (len_le_of_segWords h)), raises_raise s _⟩

/-- Settles O17: MemWrite's answer decides; the advance of the pc touches neither word nor register. -/
theorem segmentedStoreWritesOneWord : Obligations.SegmentedStoreWritesOneWord := by
  refine fun a b c s => ⟨fun ws hws hlt => ?_, fun h => ?_⟩
  · obtain ⟨t, hw, hput, hbut, hids, hregs, hpc, hstreams, hengine⟩ :=
      (memWriteReplacesOneWord (s.reg a) (s.reg b) (s.reg c) s).1 ws hws hlt
    obtain ⟨hsame, hother⟩ := readReturnsTheLatestWrite _ _ _ _ _ hw
    exact ⟨t.advance, exec_sstore_ok hw, hput, hsame, hother, hbut, hids, by rw [advance_pc, hpc],
      hregs, hstreams, hengine⟩
  · exact ⟨_, exec_sstore_error (memWrite_eq_error _ (len_le_of_segWords h)), raises_raise s _⟩

/-- Settles O39: the store leaves segment 0's length, so that the next fetch is within it and reads the
word just written. -/
theorem storeToTheNextWordIsFetched : Obligations.StoreToTheNextWordIsFetched := by
  intro a b c s ws hws ha hb hlt
  obtain ⟨t, hexec, hput, -, -, -, -, hpc, -⟩ :=
    (segmentedStoreWritesOneWord a b c s).1 ws (ha ▸ hws) (hb ▸ hlt)
  rw [ha, hb] at hput
  refine ⟨t, hexec, fetchWord_of_segWords hput ?_⟩
  rw [hpc, List.getElem?_set_self hlt]

/-! ## Divide -/

/-- R113: the quotient as a number, which no word's is too large for. -/
theorem toNat_wordDiv (v w : Word) : (wordDiv v w).toNat = v.toNat / w.toNat := by
  rw [wordDiv, BitVec.toNat_ofNat,
    Nat.mod_eq_of_lt (Nat.lt_of_le_of_lt (Nat.div_le_self _ _) v.isLt)]

theorem exec_div_of_ne_zero (a b : RegIdx) {c : RegIdx} (h : s.reg c ≠ 0#32) :
    exec (.div a b c) s = .next ((s.setReg a (wordDiv (s.reg b) (s.reg c))).advance) :=
  if_neg (by simpa [isZeroDivisor] using h)

theorem exec_div_of_zero (a b : RegIdx) {c : RegIdx} (h : s.reg c = 0#32) :
    exec (.div a b c) s = .next (s.raise .divideByZero) :=
  if_pos (by simpa [isZeroDivisor] using h)

/-- Settles O20: by whether the divisor is 0. -/
theorem divideWritesTheQuotientOrFaults : Obligations.DivideWritesTheQuotientOrFaults := by
  refine fun a b c s => ⟨fun h => ?_, fun h => ?_⟩
  · refine ⟨_, exec_div_of_ne_zero a b h, ?_, writesOnly_setReg s a _⟩
    rw [reg_advance, reg_setReg_same, toNat_wordDiv]
  · exact ⟨_, exec_div_of_zero a b h, raises_raise s _⟩

/-! ## Map -/

/-- R43: taking an id changes the free list and `next_id` alone. -/
theorem takeId_eq_setFree_setNextId {id : Word} (h : takeId s = some (id, t)) :
    ∃ ids m, t = (s.setFree ids).setNextId m := by
  rcases takeId_some h with ⟨-, ht⟩ | ⟨-, -, -, ht⟩
  · exact ⟨t.free, s.nextId, ht⟩
  · exact ⟨s.free, s.nextId + 1, ht⟩

/-- R43: a map changes the free list, `next_id` and the one segment it makes. -/
theorem segMap_eq_setSegment {n id : Word} (h : segMap n s = .ok (id, t)) :
    ∃ ids m, takeId s = some (id, (s.setFree ids).setNextId m) ∧
      t = ((s.setFree ids).setNextId m).setSegment id (zeroSegment n.toNat) := by
  obtain ⟨u, hu, -, rfl⟩ := segMap_ok h
  obtain ⟨ids, m, rfl⟩ := takeId_eq_setFree_setNextId hu
  exact ⟨ids, m, hu, rfl⟩

theorem exec_map_ok {b c : RegIdx} {id : Word} (h : segMap (s.reg c) s = .ok (id, t)) :
    exec (.map b c) s = .next ((t.setReg b id).advance) := by
  change execMap b c s = _
  rw [execMap, h]; rfl

theorem exec_map_error (b : RegIdx) {c : RegIdx} {m : RefusalMark}
    (h : segMap (s.reg c) s = .error m) : exec (.map b c) s = .next (s.refuse m) := by
  change execMap b c s = _
  rw [execMap, h]; rfl

/-- R121: the id a map answers, put into the register, makes the step that `MapsSegment` describes. -/
theorem mapsSegment_of_segMap (b : RegIdx) {n id : Word} (h : segMap n s = .ok (id, t)) :
    MapsSegment b id n.toNat s ((t.setReg b id).advance) := by
  have hwords := segMap_segWords h
  have hbut := segMap_keepsSegmentsBut h
  obtain ⟨ids, m, -, rfl⟩ := segMap_eq_setSegment h
  exact ⟨reg_setReg_same _ b id, hwords, rfl, fun r hr => reg_setReg_other _ b r id hr, hbut,
    ⟨rfl, rfl⟩, rfl, rfl, rfl, rfl⟩

/-- Settles O23: the free list's head, else `next_id`, is the id the map takes. -/
theorem mapMakesAZeroSegmentUnderTheNextId : Obligations.MapMakesAZeroSegmentUnderTheNextId := by
  refine fun b c s hcap => ⟨fun id rest hfree => ?_, fun hfree hlt => ?_⟩
  · have hm := segMap_of_takeId (takeId_of_free hfree) (fits_iff.mpr hcap)
    exact ⟨_, exec_map_ok hm, mapsSegment_of_segMap b hm, rfl, rfl⟩
  · have hm := segMap_of_takeId (takeId_of_fresh hfree hlt) (fits_iff.mpr hcap)
    exact ⟨_, exec_map_ok hm, mapsSegment_of_segMap b hm, hfree, rfl⟩

/-- R51: no id, no map. -/
theorem segMap_of_takeId_none (n : Word) (h : takeId s = none) :
    segMap n s = .error .idSpaceExhausted := by
  simp only [segMap, h]

/-- R52: no room, no map. -/
theorem segMap_of_not_fits {n : Word} (h : takeId s ≠ none) (hn : s.fits n = false) :
    segMap n s = .error .capacityExhausted := by
  obtain ⟨r, hr⟩ := Option.ne_none_iff_exists'.mp h
  simp [segMap, hr, hn]

/-- Settles O24: the two ways SegMap is refused. -/
theorem mapIsRefusedOnExhaustion : Obligations.MapIsRefusedOnExhaustion := by
  refine fun b c s => ⟨fun hfree hnext => ?_, fun cap hid hcap hfull => ?_⟩
  · have hnone := takeId_none.mpr ⟨hfree, hnext.ge⟩
    exact ⟨_, exec_map_error b (segMap_of_takeId_none _ hnone), refuses_refuse s _⟩
  · have hsome : takeId s ≠ none := fun h =>
      hid.elim (· (takeId_none.mp h).1) (Nat.not_lt.mpr (takeId_none.mp h).2)
    have hfits : s.fits (s.reg c) = false :=
      Bool.eq_false_iff.mpr fun h => Nat.not_lt.mpr (fits_iff.mp h cap hcap) hfull
    exact ⟨_, exec_map_error b (segMap_of_not_fits hsome hfits), refuses_refuse s _⟩

/-! ## Unmap -/

theorem exec_unmap_ok {c : RegIdx} (h : segUnmap (s.reg c) s = .ok t) :
    exec (.unmap c) s = .next t.advance := by
  change execUnmap c s = _
  rw [execUnmap, h]; rfl

theorem exec_unmap_error {c : RegIdx} {k : FaultKind} (h : segUnmap (s.reg c) s = .error k) :
    exec (.unmap c) s = .next (s.raise k) := by
  change execUnmap c s = _
  rw [execUnmap, h]; rfl

/-- R44: the check of SegUnmap, of segments as lists of words. -/
theorem segUnmap_error_of_segWords {id : Word} (h : id = 0#32 ∨ s.segWords id = none) :
    segUnmap id s = .error .invalidAccess :=
  segUnmap_eq_error (h.imp_right fun hnone => live_eq_false.mpr (segWords_eq_none.mp hnone))

/-- Settles O25: SegUnmap's answer decides. -/
theorem unmapFreesTheSegmentOrFaults : Obligations.UnmapFreesTheSegmentOrFaults := by
  refine fun c s => ⟨fun h0 hlive => ?_, fun h => ?_⟩
  · have hu := segUnmap_of_live h0 (live_of_segWords_ne_none hlive)
    have hbut := segUnmap_keepsSegmentsBut hu
    exact ⟨_, exec_unmap_ok hu, (segWords_dropSegment s _ _).trans (if_pos rfl), rfl, rfl,
      hbut, rfl, keepsRegs_of_x rfl, ⟨rfl, rfl⟩, rfl, rfl, rfl, rfl⟩
  · exact ⟨_, exec_unmap_error (segUnmap_error_of_segWords h), raises_raise s _⟩

/-! ## Output and input -/

theorem exec_out_of_le {c : RegIdx} (h : (s.reg c).toNat ≤ 255) :
    exec (.out c) s = .next ((s.emit ((s.reg c).setWidth 8)).advance) :=
  if_neg (by simpa [exceedsByte] using h)

theorem exec_out_of_gt {c : RegIdx} (h : 255 < (s.reg c).toNat) :
    exec (.out c) s = .next (s.raise .invalidOutput) :=
  if_pos (by simpa [exceedsByte] using h)

/-- R164: whatever it answers, `receive()` takes the head of the input. -/
theorem receive_snd (s : State) : (receive s).2 = s.setInp (s.inp.drop 1) := by
  rcases receive_cases s with ⟨hinp, hr⟩ | ⟨b, rest, hinp, hr⟩
  · rw [hr, hinp, List.drop_nil, ← hinp]; rfl
  · rw [hr, hinp]; rfl

theorem exec_inp (c : RegIdx) (s : State) :
    exec (.inp c) s =
      .next (((s.setInp (s.inp.drop 1)).setReg c (answerWord (receive s).1)).advance) := by
  rw [← receive_snd]; rfl

/-- Settles O26: by whether the value is a byte's, whose low eight bits are then all of it. -/
theorem outputEmitsOneByteOrFaults : Obligations.OutputEmitsOneByteOrFaults := by
  refine fun c s => ⟨fun h => ?_, fun h => ?_⟩
  · have hbyte : ((s.reg c).setWidth 8).toNat = (s.reg c).toNat := by
      rw [BitVec.toNat_setWidth, Nat.mod_eq_of_lt (by omega)]
    exact ⟨_, exec_out_of_le h, ⟨_, hbyte, rfl⟩, rfl, rfl, keepsRegs_of_x rfl,
      keepsSegments_of_seg rfl rfl rfl, rfl, rfl, rfl, rfl⟩
  · exact ⟨_, exec_out_of_gt h, raises_raise s _⟩

/-- Settles O27: by whether the input has a byte left. -/
theorem inputReadsOneByteOrTheSentinel : Obligations.InputReadsOneByteOrTheSentinel := by
  refine fun c s => ⟨fun v rest hinp => ?_, fun hinp => ?_⟩
  · have hanswer : (receive s).1 = .byte v := by simp only [receive, hinp]
    refine ⟨_, exec_inp c s, ?_, by simp [hinp], rfl, rfl,
      fun r hr => reg_setReg_other _ c r _ hr, keepsSegments_of_seg rfl rfl rfl, rfl, rfl, rfl, rfl⟩
    rw [reg_advance, reg_setReg_same, hanswer]
    exact BitVec.toNat_setWidth_of_le (by decide)
  · have hanswer : receive s = (.eof, s) := by simp only [receive, hinp]
    refine ⟨(s.setReg c endOfStreamWord).advance, ?_, reg_setReg_same s c _,
      writesOnly_setReg s c _⟩
    rw [exec_inp, ← receive_snd, hanswer]; rfl

/-! ## Load program -/

/-- R140: from segment 0 a LoadProgram only jumps. -/
theorem exec_loadp_zero {b : RegIdx} (c : RegIdx) (h : s.reg b = 0#32) :
    exec (.loadp b c) s = .next (s.jump (s.reg c)) :=
  if_neg (by simpa [replacesProgram] using h)

/-- R140: from any other register value it does what SegReplaceProgram answers. -/
theorem exec_loadp_of_ne_zero {b : RegIdx} (c : RegIdx) (h : s.reg b ≠ 0#32) :
    exec (.loadp b c) s =
      orRaise s ((segReplaceProgram (s.reg b) s).map fun t => t.jump (s.reg c)) :=
  if_pos (by simpa [replacesProgram] using h)

theorem exec_loadp_ok {b : RegIdx} (c : RegIdx) (h : s.reg b ≠ 0#32)
    (hr : segReplaceProgram (s.reg b) s = .ok t) :
    exec (.loadp b c) s = .next (t.jump (s.reg c)) := by
  rw [exec_loadp_of_ne_zero c h, hr]; rfl

theorem exec_loadp_error {b : RegIdx} (c : RegIdx) {k : FaultKind} (h : s.reg b ≠ 0#32)
    (hr : segReplaceProgram (s.reg b) s = .error k) :
    exec (.loadp b c) s = .next (s.raise k) := by
  rw [exec_loadp_of_ne_zero c h, hr]; rfl

/-- Settles O28: by whether x[b] is 0, and whether it names a live segment, whose value segment 0 then
takes. -/
theorem loadProgramJumpsAndMayReplaceSegmentZero :
    Obligations.LoadProgramJumpsAndMayReplaceSegmentZero := by
  refine fun b c s => ⟨fun h => ?_, fun ws h hws => ?_, fun h hnone => ?_⟩
  · exact ⟨_, exec_loadp_zero c h, rfl, keepsRegs_of_x rfl, keepsSegments_of_seg rfl rfl rfl,
      ⟨rfl, rfl⟩, rfl, rfl, rfl, rfl⟩
  · obtain ⟨g, hg, rfl⟩ := segWords_eq_some.mp hws
    exact ⟨_, exec_loadp_ok c h (segReplaceProgram_of_segment h hg), rfl,
      segWords_of_segment (segment_setSegment_same s 0#32 g), keepsSegmentsBut_setSegment s 0#32 g,
      ⟨rfl, rfl⟩, keepsRegs_of_x rfl, ⟨rfl, rfl⟩, rfl, rfl, rfl, rfl⟩
  · exact ⟨_, exec_loadp_error c h (segReplaceProgram_eq_error (segWords_eq_none.mp hnone)),
      raises_raise s _⟩

end Sys2Proof.Machine

/-!
PROOFS of the statements about every step (40_execution_engine.md R90-R95, 60_exceptions.md R150-R159):
what a meaning can do is said once, by `exec_cases` and `Effect`, and each statement is a case
analysis of it.
-/

namespace Sys2Proof.Machine

variable {s t : State} {i : Instr}

/-! ## The fault that is due is the one the operation names -/

/-- The fault an operation answers, if it answers one. -/
def errorOf {α : Type} : Except FaultKind α → Option FaultKind
  | .error k => some k
  | .ok _ => none

/-- R46: MemWrite fails as MemRead does. -/
theorem errorOf_memWrite (id off v : Word) (s : State) :
    errorOf (memWrite id off v s) = errorOf (memRead id off s) := by
  unfold memWrite memRead
  cases s.segment id with
  | none => rfl
  | some g => by_cases h : off.toNat < g.len <;> simp only [h, if_true, if_false] <;> rfl

theorem faultDue_sload (a b c : RegIdx) (s : State) :
    faultDue (.sload a b c) s = errorOf (memRead (s.reg b) (s.reg c) s) := by
  simp only [faultDue, State.segWords, memRead]
  cases s.segment (s.reg b) with
  | none => rfl
  | some g =>
    rcases Nat.lt_or_ge (s.reg c).toNat g.len with h | h
    · simp [h, Nat.not_le.mpr h, errorOf]
    · simp [h, Nat.not_lt.mpr h, errorOf]

theorem faultDue_sstore (a b c : RegIdx) (s : State) :
    faultDue (.sstore a b c) s = errorOf (memWrite (s.reg a) (s.reg b) (s.reg c) s) := by
  rw [errorOf_memWrite, ← faultDue_sload c a b s]; rfl

theorem faultDue_unmap (c : RegIdx) (s : State) :
    faultDue (.unmap c) s = errorOf (segUnmap (s.reg c) s) := by
  have hlive : s.segWords (s.reg c) = none ↔ s.live (s.reg c) = false :=
    segWords_eq_none.trans live_eq_false.symm
  simp only [faultDue, segUnmap, hlive]
  split <;> rfl

theorem faultDue_loadp_zero {b : RegIdx} (c : RegIdx) (h : s.reg b = 0#32) :
    faultDue (.loadp b c) s = none := by
  simp [faultDue, h]

theorem faultDue_loadp {b : RegIdx} (c : RegIdx) (h : s.reg b ≠ 0#32) :
    faultDue (.loadp b c) s = errorOf (segReplaceProgram (s.reg b) s) := by
  simp only [faultDue, segWords_eq_none, segReplaceProgram]
  cases hseg : s.segment (s.reg b) <;> simp [h, errorOf]

/-! ## What an instruction can do where no fault is due -/

/-- The state an instruction that raises no fault leads to, with what is known of it. -/
inductive Effect (s : State) : Instr → State → Prop where
  /-- One register is written, by an instruction that names nothing else. -/
  | register {i : Instr} {a : RegIdx} (v : Word) (hreg : writtenReg i = some a)
      (hseg : writtenSegment i s = none) (hout : emittedBytes i s = []) (hinp : consumedBytes i = 0) :
      Effect s i ((s.setReg a v).advance)
  /-- R102: a word is stored. -/
  | store {a b c : RegIdx} {g : Segment} (hg : s.segment (s.reg a) = some g)
      (hlt : (s.reg b).toNat < g.len) :
      Effect s (.sstore a b c)
        ((s.setSegment (s.reg a) (segmentPut g (s.reg b).toNat (s.reg c))).advance)
  /-- R120: the run ends. -/
  | halt : Effect s .halt s.halt
  /-- R121: a segment is made under the id taken, which a register receives. -/
  | map {b c : RegIdx} {id : Word} {ids : List Word} {m : Nat}
      (htake : takeId s = some (id, (s.setFree ids).setNextId m)) :
      Effect s (.map b c)
        (((((s.setFree ids).setNextId m).setSegment id (zeroSegment (s.reg c).toNat)).setReg b id).advance)
  /-- R51, R52: a map is refused. -/
  | mapRefused {b c : RegIdx} (m : RefusalMark) : Effect s (.map b c) (s.refuse m)
  /-- R122: a segment is freed. -/
  | unmap {c : RegIdx} (h0 : s.reg c ≠ 0#32) (hlive : s.live (s.reg c) = true) :
      Effect s (.unmap c) (((s.dropSegment (s.reg c)).setFree (s.reg c :: s.free)).advance)
  /-- R130: a byte is emitted. -/
  | out {c : RegIdx} (hle : (s.reg c).toNat ≤ 255) :
      Effect s (.out c) ((s.emit ((s.reg c).setWidth 8)).advance)
  /-- R131: the head of the input, if any, is taken and a register written. -/
  | inp {c : RegIdx} (v : Word) : Effect s (.inp c) (((s.setInp (s.inp.drop 1)).setReg c v).advance)
  /-- R140: a jump with segment 0 left as it is. -/
  | jump {b c : RegIdx} (h0 : s.reg b = 0#32) : Effect s (.loadp b c) (s.jump (s.reg c))
  /-- R140: a jump with segment 0 replaced. -/
  | load {b c : RegIdx} {g : Segment} (h0 : s.reg b ≠ 0#32) (hg : s.segment (s.reg b) = some g) :
      Effect s (.loadp b c) ((s.setSegment 0#32 g).jump (s.reg c))

/-- R94, R151: an instruction raises the fault that is due, or has its effect where none is. -/
theorem exec_cases (i : Instr) (s : State) :
    (∃ k, faultDue i s = some k ∧ exec i s = .next (s.raise k)) ∨
      (faultDue i s = none ∧ ∃ t, exec i s = .next t ∧ Effect s i t) := by
  cases i with
  | cmov a b c => exact .inr ⟨rfl, _, exec_cmov a b c s, .register _ rfl rfl rfl rfl⟩
  | sload a b c =>
    rw [faultDue_sload]
    cases h : memRead (s.reg b) (s.reg c) s with
    | error k => exact .inl ⟨k, rfl, exec_sload_error a h⟩
    | ok v => exact .inr ⟨rfl, _, exec_sload_ok h, .register _ rfl rfl rfl rfl⟩
  | sstore a b c =>
    rw [faultDue_sstore]
    cases h : memWrite (s.reg a) (s.reg b) (s.reg c) s with
    | error k => exact .inl ⟨k, rfl, exec_sstore_error h⟩
    | ok t =>
      obtain ⟨g, hg, hlt, rfl⟩ := memWrite_ok h
      exact .inr ⟨rfl, _, exec_sstore_ok h, .store hg hlt⟩
  | add a b c => exact .inr ⟨rfl, _, exec_add a b c s, .register _ rfl rfl rfl rfl⟩
  | mul a b c => exact .inr ⟨rfl, _, exec_mul a b c s, .register _ rfl rfl rfl rfl⟩
  | div a b c =>
    by_cases h : s.reg c = 0#32
    · exact .inl ⟨_, if_pos h, exec_div_of_zero a b h⟩
    · exact .inr ⟨if_neg h, _, exec_div_of_ne_zero a b h, .register _ rfl rfl rfl rfl⟩
  | nand a b c => exact .inr ⟨rfl, _, exec_nand a b c s, .register _ rfl rfl rfl rfl⟩
  | halt => exact .inr ⟨rfl, _, exec_halt s, .halt⟩
  | map b c =>
    cases h : segMap (s.reg c) s with
    | error m => exact .inr ⟨rfl, _, exec_map_error b h, .mapRefused m⟩
    | ok r =>
      obtain ⟨ids, m, htake, ht⟩ := segMap_eq_setSegment h
      exact .inr ⟨rfl, _, exec_map_ok h, ht ▸ .map htake⟩
  | unmap c =>
    rw [faultDue_unmap]
    cases h : segUnmap (s.reg c) s with
    | error k => exact .inl ⟨k, rfl, exec_unmap_error h⟩
    | ok t =>
      obtain ⟨h0, hlive, rfl⟩ := segUnmap_ok h
      exact .inr ⟨rfl, _, exec_unmap_ok h, .unmap h0 hlive⟩
  | out c =>
    rcases Nat.lt_or_ge 255 (s.reg c).toNat with h | h
    · exact .inl ⟨_, if_pos h, exec_out_of_gt h⟩
    · exact .inr ⟨if_neg (Nat.not_lt.mpr h), _, exec_out_of_le h, .out h⟩
  | inp c => exact .inr ⟨rfl, _, exec_inp c s, .inp _⟩
  | loadp b c =>
    by_cases h0 : s.reg b = 0#32
    · exact .inr ⟨faultDue_loadp_zero c h0, _, exec_loadp_zero c h0, .jump h0⟩
    · rw [faultDue_loadp c h0]
      cases h : segReplaceProgram (s.reg b) s with
      | error k => exact .inl ⟨k, rfl, exec_loadp_error c h0 h⟩
      | ok t =>
        obtain ⟨g, hg, ⟨hz, -⟩ | ⟨-, rfl⟩⟩ := segReplaceProgram_ok h
        · exact absurd hz h0
        · exact .inr ⟨rfl, _, exec_loadp_ok c h0 h, .load h0 hg⟩
  | loadi a imm => exact .inr ⟨rfl, _, exec_loadi a imm s, .register _ rfl rfl rfl rfl⟩

/-- R90, R94: what a step that answers a next state did: it raised a fault, the one due when it had
fetched an instruction, or it had the effect of the instruction fetched. -/
theorem step_cases (h : step s = .next t) :
    s.canStep ∧
      ((∃ k, t = s.raise k ∧ ∀ i, fetchInstr s = .ok i → faultDue i s = some k) ∨
        ∃ i, fetchInstr s = .ok i ∧ Effect s i t) := by
  obtain ⟨hr, hrun, hcases⟩ := step_next h
  refine ⟨⟨hr, hrun⟩, ?_⟩
  rcases hcases with ⟨k, hk, rfl⟩ | ⟨i, hi, hexec⟩
  · exact .inl ⟨k, rfl, fun i hi => by simp [hk] at hi⟩
  · rcases exec_cases i s with ⟨k, hdue, hraise⟩ | ⟨-, u, hnext, heffect⟩
    · cases hexec.symm.trans hraise
      exact .inl ⟨k, rfl, fun j hj => by cases hi.symm.trans hj; exact hdue⟩
    · cases hexec.symm.trans hnext
      exact .inr ⟨i, hi, heffect⟩

/-! ## The frame of an effect -/

namespace Effect

/-- No effect touches the fault record or the parameter. -/
theorem fault_eq (h : Effect s i t) : t.fault = s.fault := by cases h <;> rfl

theorem capacityWords_eq (h : Effect s i t) : t.capacityWords = s.capacityWords := by
  cases h <;> rfl

/-- Only a Halt ends the run, and it sets no mark. -/
theorem runState_cases (h : Effect s i t) :
    (i = .halt ∧ t.runState = .halted ∧ t.refused = s.refused) ∨ t.runState = s.runState := by
  cases h with
  | halt => exact .inl ⟨rfl, rfl, rfl⟩
  | _ => exact .inr rfl

theorem runState_ne_faulted (h : Effect s i t) (hrun : s.runState = .running) :
    t.runState ≠ .faulted := by
  rcases h.runState_cases with ⟨-, he, -⟩ | he <;> simp [he, hrun]

theorem reg_eq (h : Effect s i t) (r : RegIdx) (hr : writtenReg i ≠ some r) : t.reg r = s.reg r := by
  cases h with
  | register v hreg => exact reg_setReg_other s _ r v fun e => hr (e ▸ hreg)
  | map => exact reg_setReg_other _ _ r _ fun e => hr (e ▸ rfl)
  | inp v => exact reg_setReg_other _ _ r v fun e => hr (e ▸ rfl)
  | _ => rfl

theorem segment_eq (h : Effect s i t) (id : Word) (hid : writtenSegment i s ≠ some id) :
    t.segment id = s.segment id := by
  cases h with
  | store => exact (segment_setSegment s _ id _).trans (if_neg (by rintro rfl; exact hid rfl))
  | map htake =>
    refine (segment_setSegment _ _ id _).trans (if_neg ?_)
    rintro rfl
    exact hid (by rw [writtenSegment, htake]; rfl)
  | unmap => exact (segment_dropSegment s _ id).trans (if_neg (by rintro rfl; exact hid rfl))
  | load h0 =>
    exact (segment_setSegment s _ id _).trans (if_neg (by rintro rfl; exact hid (if_neg h0)))
  | _ => rfl

theorem keepsIds (h : Effect s i t) (hmap : ∀ b c, i ≠ .map b c) (hunmap : ∀ c, i ≠ .unmap c) :
    KeepsIds s t := by
  cases h with
  | map => exact absurd rfl (hmap _ _)
  | unmap => exact absurd rfl (hunmap _)
  | _ => exact ⟨rfl, rfl⟩

theorem out_eq (h : Effect s i t) : t.out = s.out ++ emittedBytes i s := by
  cases h with
  | register v hreg hseg hout => rw [hout, List.append_nil]; rfl
  | out hle => rw [emittedBytes, if_pos hle, BitVec.ofNat_toNat]; rfl
  | _ => exact (List.append_nil _).symm

theorem inp_eq (h : Effect s i t) : t.inp = s.inp.drop (consumedBytes i) := by
  cases h with
  | register v hreg hseg hout hinp => rw [hinp]; rfl
  | _ => rfl

/-- R102: a store leaves the other words of its segment. -/
theorem memRead_eq_of_sstore {a b c : RegIdx} (h : Effect s (.sstore a b c) t) {off : Word}
    (hoff : off ≠ s.reg b) : memRead (s.reg a) off t = memRead (s.reg a) off s := by
  cases h with
  | register v hreg => cases hreg
  | store hg hlt =>
    exact (readReturnsTheLatestWrite _ _ _ _ _ (memWrite_of_segment (s.reg c) hg hlt)).2 _ off
      fun e => hoff e.2

end Effect

/-- R152: an instruction that faults moves no byte. -/
theorem bytes_of_faultDue {k : FaultKind} (h : faultDue i s = some k) :
    emittedBytes i s = [] ∧ consumedBytes i = 0 := by
  cases i with
  | out c =>
    refine ⟨if_neg fun hle => ?_, rfl⟩
    simp [faultDue, Nat.not_lt.mpr hle] at h
  | inp c => cases h
  | _ => exact ⟨rfl, rfl⟩

/-! ## The obligations -/

/-- Settles O12: `exec_cases` answers in both cases, and a step is stopped exactly outside `canStep`. -/
theorem everyInstructionAnswersANextState : Obligations.EveryInstructionAnswersANextState := by
  have hexec : ∀ (i : Instr) (s : State), ∃ t, exec i s = .next t := fun i s => by
    rcases exec_cases i s with ⟨k, -, h⟩ | ⟨-, t, h, -⟩ <;> exact ⟨_, h⟩
  refine ⟨hexec, fun s => ⟨fun ⟨t, h⟩ => (step_cases h).1, fun hs => ?_⟩⟩
  cases hf : fetchInstr s with
  | error k => exact ⟨_, step_of_fetchInstr_error hs hf⟩
  | ok i => rw [step_of_fetchInstr hs hf]; exact hexec i s

/-- Settles O13: an effect never ends in Faulted, so that the step raised. -/
theorem faultsArePrecise : Obligations.FaultsArePrecise := by
  intro s t h hfaulted
  obtain ⟨⟨-, hrun⟩, ⟨k, rfl, -⟩ | ⟨i, -, heffect⟩⟩ := step_cases h
  · exact ⟨k, raises_raise s k⟩
  · exact absurd hfaulted (heffect.runState_ne_faulted hrun)

/-- Settles O10: the step of an ended state is answered by `stopped`, and of the effects only Halt's
ends a run. -/
theorem onlyHaltOrFaultStopsAndNothingResumes :
    Obligations.OnlyHaltOrFaultStopsAndNothingResumes := by
  refine ⟨fun s hr => ⟨step_of_halted hr, step_of_faulted hr⟩, fun s t h hended => ?_⟩
  obtain ⟨⟨-, hrun⟩, ⟨k, rfl, -⟩ | ⟨i, hi, heffect⟩⟩ := step_cases h
  · exact .inr ⟨k, raises_raise s k⟩
  · rcases heffect.runState_cases with ⟨rfl, hhalted, -⟩ | hsame
    · exact .inl ⟨hi, hhalted⟩
    · simp [State.ended, hsame, hrun] at hended

/-- Settles O14: by the fetch's bound, then by what the word decodes to, then by `exec_cases`. -/
theorem faultsAreRaisedExactlyWhenDue : Obligations.FaultsAreRaisedExactlyWhenDue := by
  intro s ws hs hws
  refine ⟨(fetchChecksTheCurrentLength s ws hws).1 hs, fun w hw => ?_⟩
  have hword := fetchWord_of_segWords hws hw
  split
  next hi => exact step_raises_of_fetchInstr_error hs (fetchInstr_of_undefined hword hi)
  next i hi =>
    rw [step_of_fetchInstr hs (fetchInstr_of_decodeInstr hword hi)]
    rcases exec_cases i s with ⟨k, hdue, hraise⟩ | ⟨hdue, t, hnext, heffect⟩
    · rw [hdue]
      exact ⟨_, hraise, raises_raise s k⟩
    · rw [hdue]
      exact ⟨t, hnext, heffect.runState_ne_faulted hs.2⟩

/-- Settles O46: a raised fault keeps all that a step could write, and each clause is one line of an
effect's frame. -/
theorem stepEffectsAreLimited : Obligations.StepEffectsAreLimited := by
  intro s t h
  obtain ⟨-, ⟨k, rfl, hdue⟩ | ⟨j, hj, heffect⟩⟩ := step_cases h
  · obtain ⟨-, -, -, hregs, hsegs, hstreams, -, hcap⟩ := raises_raise s k
    refine ⟨hcap, fun _ _ => ⟨hregs, hsegs, hstreams⟩, fun i hi => ?_⟩
    obtain ⟨hout, hinp⟩ := bytes_of_faultDue (hdue i hi)
    exact ⟨fun r _ => hregs r, fun id _ => ⟨hsegs.1 id, hsegs.2.1 id⟩,
      fun a _ _ _ off _ => hsegs.2.1 (s.reg a) off, fun _ _ => hsegs.2.2,
      by rw [hout, List.append_nil]; rfl, by rw [hinp]; rfl⟩
  · refine ⟨heffect.capacityWords_eq, fun k hk => by simp [hj] at hk, fun i hi => ?_⟩
    cases hj.symm.trans hi
    refine ⟨heffect.reg_eq, fun id hid => ?_, ?_, heffect.keepsIds, heffect.out_eq, heffect.inp_eq⟩
    · have hseg := heffect.segment_eq id hid
      exact ⟨segWords_congr hseg, fun off => memRead_congr off hseg⟩
    · rintro a b c rfl off hoff
      exact heffect.memRead_eq_of_sstore hoff

end Sys2Proof.Machine

/-!
PROOFS of the statements about the invariant (10_state.md R27-R33, 20_memory.md R40, R50), at reset, at
a launch and along every run (70_reset_and_hazards.md R180-R183).
-/

namespace Sys2Proof.Machine

variable {s t u : State} {i : Instr}

/-! ## Which ids are live -/

theorem live_setSegment (s : State) (id j : Word) (g : Segment) :
    (s.setSegment id g).live j = if j = id then true else s.live j := by
  simp only [State.live, segment_setSegment]; split <;> rfl

theorem live_dropSegment (s : State) (id j : Word) :
    (s.dropSegment id).live j = if j = id then false else s.live j := by
  simp only [State.live, segment_dropSegment]; split <;> rfl

theorem live_of_segment {id : Word} {g : Segment} (h : s.segment id = some g) : s.live id = true :=
  live_iff.mpr ⟨g, h⟩

/-! ## The part of the invariant that is about the segment table -/

/-- What `State.Inv` says of the segments, the free list and `next_id`, whatever the engine does. -/
structure MemoryInv (s : State) : Prop where
  /-- R33. -/
  table : TableInv s
  /-- `1 <= next_id <= 2^32`. -/
  idRange : 1 ≤ s.nextId ∧ s.nextId ≤ 2 ^ 32
  /-- The memory is canonical. -/
  memory : Memory.wf s.seg

theorem State.Inv.memoryInv (h : s.Inv) : MemoryInv s := ⟨h.table, h.idRange, h.memory⟩

/-- R33 (5), of the segments instead of their lists of words. -/
theorem TableInv.len_le (h : TableInv s) {id : Word} {g : Segment} (hg : s.segment id = some g) :
    g.len ≤ 2 ^ 32 - 1 :=
  segmentWords_length g ▸ h.bounded id _ (segWords_of_segment hg)

theorem bounded_of_len_le (h : ∀ id g, s.segment id = some g → g.len ≤ 2 ^ 32 - 1) (id : Word)
    (ws : List Word) (hws : s.segWords id = some ws) : ws.length ≤ 2 ^ 32 - 1 := by
  obtain ⟨g, hg, rfl⟩ := segWords_eq_some.mp hws
  rw [segmentWords_length]
  exact h id g hg

/-- R33 (1)-(4) speak of the live ids, the free list and `next_id` only. -/
theorem TableInv.of_live_eq (h : TableInv s) (hlive : ∀ id, t.live id = s.live id)
    (hn : t.nextId = s.nextId) (hf : t.free = s.free)
    (hlen : ∀ id g, t.segment id = some g → g.len ≤ 2 ^ 32 - 1) : TableInv t where
  programLive := by rw [hlive]; exact h.programLive
  unminted id := by rw [hlive, hn]; exact h.unminted id
  freeExact id := by rw [hlive, hn, hf]; exact h.freeExact id
  freeOnce := by rw [hf]; exact h.freeOnce
  zeroKept := by rw [hf]; exact h.zeroKept
  bounded := bounded_of_len_le hlen

namespace MemoryInv

theorem of_seg_eq (h : MemoryInv s) (hs : t.seg = s.seg) (hn : t.nextId = s.nextId)
    (hf : t.free = s.free) : MemoryInv t where
  table := by
    have hseg : ∀ id, t.segment id = s.segment id := fun id => by simp only [State.segment, hs]
    exact h.table.of_live_eq (fun id => live_congr (hseg id)) hn hf
      fun id g hg => h.table.len_le ((hseg id).symm.trans hg)
  idRange := by rw [hn]; exact h.idRange
  memory := by rw [hs]; exact h.memory

/-- R46, R47: a live segment replaced by one of legal length. -/
theorem setSegment (h : MemoryInv s) {id : Word} {g : Segment} (hid : s.live id = true)
    (hg : g.wf) (hlen : g.len ≤ 2 ^ 32 - 1) : MemoryInv (s.setSegment id g) where
  table := by
    refine h.table.of_live_eq (fun j => ?_) rfl rfl fun j g' hg' => ?_
    · rw [live_setSegment]
      split
      next hj => rw [hj, hid]
      next => rfl
    · rw [segment_setSegment] at hg'
      split at hg'
      · cases hg'; exact hlen
      · exact h.table.len_le hg'
  idRange := h.idRange
  memory := tableInsert_memoryWf h.memory (word_lt_idLimit id) hg

end MemoryInv

/-! ## A map's id -/

/-- R7: a number below the limit of the ids is that of a word. -/
theorem toNat_idOfNat {n : Nat} (hlt : n < Config.idLimit) : (BitVec.ofNat 32 n).toNat = n :=
  (BitVec.toNat_ofNat _ _).trans (Nat.mod_eq_of_lt hlt)

theorem word_ne_zero_of_one_le {id : Word} (h : 1 ≤ id.toNat) : id ≠ 0#32 := by
  rintro rfl
  exact absurd h (by decide)

/-- R50 (1): an id that a map takes was freed, or is `next_id`, and was neither live nor 0. -/
theorem takeId_not_live (h : MemoryInv s) {id : Word} (htake : takeId s = some (id, u)) :
    s.live id = false ∧ id ≠ 0#32 := by
  rcases takeId_some htake with ⟨hfree, -⟩ | ⟨-, hlt, rfl, -⟩
  · obtain ⟨hpos, -, hdead⟩ := (h.table.freeExact id).mp (hfree ▸ List.mem_cons_self)
    exact ⟨hdead, word_ne_zero_of_one_le hpos⟩
  · have hid := toNat_idOfNat hlt
    exact ⟨h.table.unminted _ hid.ge, word_ne_zero_of_one_le (h.idRange.1.trans hid.ge)⟩

/-- Settles O36: `takeId_not_live` of the id the map took. -/
theorem mapNeverReturnsALiveId : Obligations.MapNeverReturnsALiveId := by
  intro s t n id h hm
  obtain ⟨u, htake, -, -⟩ := segMap_ok hm
  exact takeId_not_live h.memoryInv htake

/-! ## Map and unmap keep the table's part -/

/-- R33 after a segment of `n` words is made under an id that was minted and is no longer free,
however the id was taken. -/
theorem MemoryInv.newSegment (h : MemoryInv s) (hseg : u.seg = s.seg) {id : Word} (n : Word)
    (hle : s.nextId ≤ u.nextId) (hid : id.toNat < u.nextId) (hlimit : u.nextId ≤ 2 ^ 32)
    (honce : u.free.Nodup)
    (hexact : ∀ j, j ∈ u.free ↔ j ≠ id ∧ 1 ≤ j.toNat ∧ j.toNat < u.nextId ∧ s.live j = false) :
    MemoryInv (u.setSegment id (zeroSegment n.toNat)) := by
  have husegment : ∀ j, u.segment j = s.segment j := fun j => by simp only [State.segment, hseg]
  have hlive : ∀ j, (u.setSegment id (zeroSegment n.toNat)).live j =
      if j = id then true else s.live j := fun j => by
    rw [live_setSegment, live_congr (husegment j)]
  refine ⟨⟨?_, fun j hj => ?_, fun j => (hexact j).trans ?_, honce, fun h0 => ?_,
    bounded_of_len_le fun j g hg => ?_⟩, ⟨h.idRange.1.trans hle, hlimit⟩,
    tableInsert_memoryWf (hseg ▸ h.memory) (word_lt_idLimit id) (zeroSegment_wf _)⟩
  · rw [hlive, h.table.programLive, ite_self]
  · rw [hlive, if_neg (by rintro rfl; exact Nat.not_lt.mpr hj hid)]
    exact h.table.unminted j (hle.trans hj)
  · rw [hlive]
    by_cases hj : j = id <;> simp [hj]
  · exact absurd ((hexact _).mp h0).2.1 (by decide)
  · rw [segment_setSegment, husegment] at hg
    split at hg
    · cases hg; exact Nat.le_sub_one_of_lt n.isLt
    · exact h.table.len_le hg

/-- R33 after a map (R43): the id leaves the free list, or is minted by the step of `next_id`. -/
theorem MemoryInv.map (h : MemoryInv s) {id : Word} (n : Word) (htake : takeId s = some (id, u)) :
    MemoryInv (u.setSegment id (zeroSegment n.toNat)) := by
  rcases takeId_some htake with ⟨hfree, hu⟩ | ⟨-, hlt, rfl, rfl⟩
  · have hnext : u.nextId = s.nextId := (congrArg State.nextId hu).trans rfl
    obtain ⟨hnotin, hnodup⟩ := List.nodup_cons.mp (hfree ▸ h.table.freeOnce)
    obtain ⟨-, hid, -⟩ := (h.table.freeExact id).mp (hfree ▸ List.mem_cons_self)
    refine h.newSegment (takeId_seg htake) n hnext.ge (hnext ▸ hid) (hnext ▸ h.idRange.2) hnodup
      fun j => ?_
    rw [hnext, ← h.table.freeExact j, hfree, List.mem_cons]
    by_cases hj : j = id <;> simp [hj, hnotin]
  · have hid := toNat_idOfNat hlt
    refine h.newSegment (u := s.setNextId (s.nextId + 1)) rfl n (Nat.le_succ _)
      (Nat.lt_succ_of_le hid.le) hlt h.table.freeOnce fun j => ?_
    have hj : j ≠ BitVec.ofNat 32 s.nextId ↔ j.toNat ≠ s.nextId := by
      rw [Ne, ← toNat_eq_iff, hid]
    rw [setNextId_free, setNextId_nextId, h.table.freeExact j, hj]
    exact ⟨fun ⟨hpos, hlt, hdead⟩ => ⟨hlt.ne, hpos, Nat.lt_succ_of_lt hlt, hdead⟩,
      fun ⟨hne, hpos, hlt, hdead⟩ => ⟨hpos, by omega, hdead⟩⟩

/-- R33 after an unmap: the id is now free, and was not before, because it was live. -/
theorem MemoryInv.unmap (h : MemoryInv s) {id : Word} (h0 : id ≠ 0#32) (hid : s.live id = true) :
    MemoryInv ((s.dropSegment id).setFree (id :: s.free)) := by
  have hlive : ∀ j, ((s.dropSegment id).setFree (id :: s.free)).live j =
      if j = id then false else s.live j := live_dropSegment s id
  have hminted : id.toNat < s.nextId := Nat.lt_of_not_le fun hle => by
    simp [h.table.unminted id hle] at hid
  have hpos : 1 ≤ id.toNat := Nat.one_le_iff_ne_zero.mpr fun e => h0 (BitVec.eq_of_toNat_eq e)
  refine ⟨⟨?_, fun j hj => ?_, fun j => ?_, ?_, ?_, bounded_of_len_le fun j g hg => ?_⟩,
    h.idRange, tableErase_memoryWf h.memory⟩
  · rw [hlive, if_neg h0.symm, h.table.programLive]
  · rw [hlive, h.table.unminted j hj, ite_self]
  · rw [hlive, setFree_free, List.mem_cons]
    by_cases hj : j = id
    · simp [hj, hpos, hminted]
    · rw [if_neg hj, or_iff_right hj]
      exact h.table.freeExact j
  · exact List.nodup_cons.mpr
      ⟨fun hmem => by simp [((h.table.freeExact id).mp hmem).2.2] at hid, h.table.freeOnce⟩
  · exact fun hmem => (List.mem_cons.mp hmem).elim h0.symm h.table.zeroKept
  · rw [segment_setFree, segment_dropSegment] at hg
    split at hg
    · cases hg
    · exact h.table.len_le hg

/-! ## Every step keeps the invariant -/

theorem Effect.memoryInv (h : Effect s i t) (hs : MemoryInv s) : MemoryInv t := by
  cases h with
  | @store _ _ c _ hg hlt =>
    have hwf := segmentPut_wf (v := s.reg c) (segment_wf hs.memory hg) hlt
    have hlen := hs.table.len_le hg
    exact (hs.setSegment (live_of_segment hg) hwf hlen).of_seg_eq rfl rfl rfl
  | map htake => exact (hs.map _ htake).of_seg_eq rfl rfl rfl
  | unmap h0 hlive => exact (hs.unmap h0 hlive).of_seg_eq rfl rfl rfl
  | load h0 hg =>
    exact (hs.setSegment hs.table.programLive (segment_wf hs.memory hg)
      (hs.table.len_le hg)).of_seg_eq rfl rfl rfl
  | _ => exact hs.of_seg_eq rfl rfl rfl

/-- Settles O40: the table's part by `Effect.memoryInv`; the engine's part because only a fault writes
the record, and only a refused map the mark. -/
theorem everyStepKeepsTheInvariant : Obligations.EveryStepKeepsTheInvariant := by
  intro s t hs h
  obtain ⟨⟨hr, hrun⟩, ⟨k, rfl, -⟩ | ⟨i, -, heffect⟩⟩ := step_cases h
  · have hmemory : MemoryInv (s.raise k) := hs.memoryInv.of_seg_eq rfl rfl rfl
    exact ⟨hmemory.table, hmemory.idRange, by simp, by simp [hr], hmemory.memory⟩
  · have hmemory := heffect.memoryInv hs.memoryInv
    have hfault : s.fault.isSome ≠ true := fun hf => by simp [hs.faultRecord.mp hf] at hrun
    refine ⟨hmemory.table, hmemory.idRange, ?_, fun hmark => ?_, hmemory.memory⟩
    · rw [heffect.fault_eq]
      exact iff_of_false hfault (heffect.runState_ne_faulted hrun)
    · rcases heffect.runState_cases with ⟨-, -, hsame⟩ | hsame
      · simp [hsame, hr] at hmark
      · rw [hsame, hrun]

/-- What a step keeps holds along a run, of any machine behind the host's interface. -/
theorem run_induction {M : Host.Core} {P : M.State → Prop}
    (hstep : ∀ s t, P s → M.step s = .next t → P t) {k : Nat} {s t : M.State} (hs : P s)
    (h : M.run k s = .next t) : P t := by
  induction k generalizing s with
  | zero => cases h; exact hs
  | succ k ih =>
    unfold Host.Core.run at h
    split at h
    next u hu => exact ih (hstep s u hs hu) h
    next => cases h
    next => cases h

/-- What a step keeps holds in every state a run reaches. -/
theorem reaches_induction {P : State → Prop} (hstep : ∀ s t, P s → step s = .next t → P t)
    (hs : P s) (h : Reaches s t) : P t := by
  obtain ⟨k, hk⟩ := h
  exact run_induction (M := Sys2Proof.core) hstep hs hk

/-! ## Reset and launch -/

theorem reset_eq_launchWords : State.reset = launchWords none [] [] := rfl

/-- R180: segment 0 is the program, and no other is live. -/
theorem segment_launchWords (capacity : Option Nat) (ws : List Word) (input : List Byte) (id : Word) :
    (launchWords capacity ws input).segment id =
      if id = 0#32 then some (segmentOfWords ws) else none := by
  simp [launchWords, State.segment, tableFind, ← toNat_eq_iff]

theorem live_launchWords (capacity : Option Nat) (ws : List Word) (input : List Byte) (id : Word) :
    (launchWords capacity ws input).live id = decide (id = 0#32) := by
  rw [State.live, segment_launchWords]
  split <;> simp [*]

/-- R180: the invariant at the start of a run. -/
theorem launchWords_inv (capacity : Option Nat) {ws : List Word} (input : List Byte)
    (hlen : ws.length ≤ Config.maxSegmentWords) : (launchWords capacity ws input).Inv := by
  refine ⟨⟨live_launchWords .., fun id hid => ?_, fun id => ?_, List.nodup_nil, List.not_mem_nil,
    bounded_of_len_le fun id g hg => ?_⟩, ⟨Nat.le_refl 1, Nat.one_le_two_pow⟩,
    by simp [launchWords, State.reset], by simp [launchWords, State.reset],
    launchWords_memoryWf capacity ws input⟩
  · rw [live_launchWords, decide_eq_false (word_ne_zero_of_one_le hid)]
  · refine ⟨fun h => absurd h List.not_mem_nil, fun ⟨hpos, hlt, _⟩ => ?_⟩
    exact absurd hlt (Nat.not_lt.mpr hpos)
  · rw [segment_launchWords] at hg
    split at hg <;> cases hg
    exact hlen

/-- Settles O41: reset is the launch of the empty image. -/
theorem resetHasTheInvariant : Obligations.ResetHasTheInvariant :=
  launchWords_inv (ws := []) none [] (Nat.zero_le _)

/-- Settles O48: reset is the launch of the empty image, whose one segment is empty. -/
theorem resetStateIsTheInitialState : Obligations.ResetStateIsTheInitialState := by
  refine ⟨rfl, segWords_launchWords_zero none [] [], fun id hid => ?_, rfl, rfl, rfl, rfl, rfl, rfl,
    rfl⟩
  rw [segWords_eq_none, reset_eq_launchWords, segment_launchWords, if_neg hid]

/-- Settles O51: a launch that is no load-time error answers `launchWords`. -/
theorem launchTakesTheInitialState : Obligations.LaunchTakesTheInitialState := by
  intro capacity image input s h
  obtain ⟨ws, -, hlen, rfl⟩ := launch_some h
  refine ⟨rfl, live_launchWords .., fun id hid => ?_, rfl, rfl, rfl, rfl, rfl, rfl, rfl, rfl,
    launchWords_inv capacity input hlen⟩
  rw [live_launchWords, decide_eq_false hid]

/-- Settles O42: the invariant holds at the launch, and every step keeps it. -/
theorem tableInvariantHoldsInEveryReachableState :
    Obligations.TableInvariantHoldsInEveryReachableState := by
  intro capacity image input s t hlaunch hreach
  obtain ⟨ws, -, hlen, rfl⟩ := launch_some hlaunch
  exact (reaches_induction everyStepKeepsTheInvariant (launchWords_inv capacity input hlen)
    hreach).table

/-! ## What the invariant gives -/

/-- Settles O44: a fault leaves the pc, and a pc that was fetched from is below segment 0's length. -/
theorem advancingPcNeverWraps : Obligations.AdvancingPcNeverWraps := by
  intro s t hs h hpc
  rw [hpc]
  obtain ⟨-, ⟨k, rfl, -⟩ | ⟨i, hi, -⟩⟩ := step_cases h
  · rw [raise_pc] at hpc
    bv_omega
  · obtain ⟨w, hw, -⟩ := fetchInstr_ok hi
    obtain ⟨g, hg, hlt, -⟩ := fetchWord_ok hw
    have hlen := hs.table.len_le hg
    bv_omega

/-- R40: an instruction other than LoadProgram keeps the length of each segment that stays live: the
segment a map makes was not live, and the one an unmap frees is not live any more. -/
theorem Effect.len_eq (h : Effect s i t) (hs : MemoryInv s) {id : Word} {g g' : Segment}
    (hg : s.segment id = some g) (hg' : t.segment id = some g')
    (hload : id ≠ 0#32 ∨ ∀ b c, i ≠ .loadp b c) : g'.len = g.len := by
  by_cases hid : writtenSegment i s = some id
  · cases h with
    | store hold =>
      cases hid
      rw [segment_advance, segment_setSegment_same] at hg'
      cases hg'
      cases hold.symm.trans hg
      rfl
    | map htake =>
      rw [writtenSegment, htake] at hid
      cases hid
      obtain ⟨hdead, -⟩ := takeId_not_live hs htake
      simp [live_of_segment hg] at hdead
    | unmap =>
      cases hid
      simp [segment_dropSegment] at hg'
    | load h0 =>
      rw [writtenSegment, if_neg h0] at hid
      cases hid
      rcases hload with hne | hnot
      · exact absurd rfl hne
      · exact absurd rfl (hnot _ _)
    | register v hreg hseg => rw [hseg] at hid; cases hid
    | mapRefused => cases hg.symm.trans hg'; rfl
    | jump => cases hg.symm.trans hg'; rfl
    | _ => cases hid
  · rw [h.segment_eq id hid] at hg'
    cases hg.symm.trans hg'
    rfl

/-- Settles O45: `Effect.len_eq`, and a fault leaves every segment. -/
theorem segmentLengthsAreFixed : Obligations.SegmentLengthsAreFixed := by
  intro s t id ws ws' hs h hws hws' hload
  obtain ⟨g, hg, rfl⟩ := segWords_eq_some.mp hws
  obtain ⟨g', hg', rfl⟩ := segWords_eq_some.mp hws'
  rw [segmentWords_length, segmentWords_length]
  obtain ⟨-, ⟨k, rfl, -⟩ | ⟨i, hi, heffect⟩⟩ := step_cases h
  · cases hg.symm.trans hg'
    rfl
  · exact heffect.len_eq hs.memoryInv hg hg'
      (hload.imp_right fun hnot b c e => hnot b c (e ▸ hi))

end Sys2Proof.Machine

/-!
PROOFS of the statements about many maps and unmaps (20_memory.md R50), and of the canonical form as a
value for each table of segments (10_state.md R31).
-/

namespace Sys2Proof.Machine

variable {s t u : State}

/-! ## Many unmaps, many maps -/

/-- R44: each unmap pushes its id, so that the last one freed comes first. -/
theorem unmapAll_ok {ids : List Word} (h : unmapAll ids s = .ok u) :
    u.free = ids.reverse ++ s.free ∧ u.nextId = s.nextId ∧ u.capacityWords = s.capacityWords := by
  induction ids generalizing s with
  | nil => cases h; exact ⟨rfl, rfl, rfl⟩
  | cons id ids ih =>
    unfold unmapAll at h
    split at h
    next => cases h
    next t ht =>
      obtain ⟨-, -, rfl⟩ := segUnmap_ok ht
      obtain ⟨hfree, hnext, hcap⟩ := ih h
      exact ⟨by rw [hfree, setFree_free, List.reverse_cons, List.append_assoc]; rfl, hnext, hcap⟩

/-- R7: a store without a capacity holds any segment. -/
theorem fits_of_unbounded (n : Word) (h : s.capacityWords = none) : s.fits n = true :=
  fits_iff.mpr fun cap hcap => by simp [h] at hcap

/-- R43: a map in an unbounded store, then the rest of the maps. -/
theorem mapAll_cons {id n : Word} {ns ids : List Word} (hcap : s.capacityWords = none)
    (htake : takeId s = some (id, u))
    (hrest : mapAll ns (u.setSegment id (zeroSegment n.toNat)) = .ok (ids, t)) :
    mapAll (n :: ns) s = .ok (id :: ids, t) := by
  simp only [mapAll, segMap_of_takeId htake (fits_of_unbounded n hcap), hrest]
  rfl

/-- R43: maps take the ids of the free list, first to last. -/
theorem mapAll_of_free {ids ns rest : List Word} (hfree : s.free = ids ++ rest)
    (hlen : ns.length = ids.length) (hcap : s.capacityWords = none) :
    ∃ t, mapAll ns s = .ok (ids, t) ∧ t.free = rest ∧ t.nextId = s.nextId := by
  induction ids generalizing s ns with
  | nil =>
    obtain rfl := List.eq_nil_of_length_eq_zero hlen
    exact ⟨s, rfl, hfree, rfl⟩
  | cons id ids ih =>
    obtain ⟨n, ns, rfl⟩ := List.exists_cons_of_length_eq_add_one hlen
    have htake := takeId_of_free hfree
    obtain ⟨t, hmap, htfree, htnext⟩ :=
      ih (s := (s.setFree (ids ++ rest)).setSegment id (zeroSegment n.toNat)) rfl
        (Nat.succ.inj hlen) hcap
    exact ⟨t, mapAll_cons hcap htake hmap, htfree, htnext⟩

/-- Settles O37: the unmaps put the reversed list in front of the free list, and the maps take it from
there. -/
theorem freedIdsComeBackLastFirst : Obligations.FreedIdsComeBackLastFirst := by
  intro ids ns s u h hlen hcap
  obtain ⟨hfree, hnext, hucap⟩ := unmapAll_ok h
  rw [← hnext]
  exact mapAll_of_free hfree (by rw [hlen, List.length_reverse]) (hucap.trans hcap)

/-- The ids from `n` on, as one more map shifts them. -/
theorem range_succ_ids (n k : Nat) :
    ((List.range (k + 1)).map fun j => BitVec.ofNat 32 (n + j)) =
      BitVec.ofNat 32 n :: (List.range k).map fun j => BitVec.ofNat 32 (n + 1 + j) := by
  simp only [List.range_succ_eq_map, List.map_cons, List.map_map, Function.comp_def, Nat.add_zero,
    Nat.succ_eq_add_one, Nat.add_assoc, Nat.add_comm 1]

/-- Settles O38: by induction on the maps, each of which takes `next_id` and makes it one larger. -/
theorem freshIdsAreHandedOutInOrder : Obligations.FreshIdsAreHandedOutInOrder := by
  intro ns
  induction ns with
  | nil => exact fun s hfree _ _ => ⟨s, rfl, hfree, rfl⟩
  | cons n ns ih =>
    intro s hfree hcap hle
    rw [List.length_cons] at hle ⊢
    have htake := takeId_of_fresh hfree (by omega)
    obtain ⟨t, hmap, htfree, htnext⟩ :=
      ih ((s.setNextId (s.nextId + 1)).setSegment (BitVec.ofNat 32 s.nextId) (zeroSegment n.toNat))
        hfree hcap (by rw [setSegment_nextId, setNextId_nextId]; omega)
    rw [setSegment_nextId, setNextId_nextId] at hmap htnext
    rw [range_succ_ids]
    exact ⟨t, mapAll_cons hcap htake hmap, htfree, by omega⟩

/-! ## Sorted lists with the same finds are equal -/

/-- Rising keys make a list of entries the only one with its finds. -/
theorem table_ext {α : Type} {l m : List (Nat × α)} (hl : TableSorted l) (hm : TableSorted m)
    (h : ∀ k, tableFind k l = tableFind k m) : l = m := by
  have hmem : ∀ e, e ∈ l ↔ e ∈ m := fun ⟨k, v⟩ =>
    ⟨fun he => mem_of_tableFind (h k ▸ tableFind_of_mem hl he),
      fun he => mem_of_tableFind ((h k).symm ▸ tableFind_of_mem hm he)⟩
  have hirrefl : Std.Irrefl fun e f : Nat × α => e.1 < f.1 := ⟨fun e => Nat.lt_irrefl e.1⟩
  have hantisymm : Std.Antisymm fun e f : Nat × α => e.1 < f.1 :=
    ⟨fun _ _ hef hfe => absurd hfe (Nat.lt_asymm hef)⟩
  exact hl.eq_of_mem_iff hm hmem

/-- In canonical form a word is listed exactly when it is not 0. -/
theorem tableFind_cells {g : Segment} (hg : g.wf) (off : Nat) :
    tableFind off g.cells =
      if segmentGet g off = 0#32 then none else some (segmentGet g off) := by
  rw [segmentGet]
  cases h : tableFind off g.cells with
  | none => rfl
  | some v => exact (if_neg (hg.2 _ (mem_of_tableFind h)).2).symm

/-- A key at or past a bound of all the keys is not found. -/
theorem tableFind_of_keys_lt {α : Type} {l : List (Nat × α)} {n k : Nat} (hl : ∀ e ∈ l, e.1 < n)
    (hk : n ≤ k) : tableFind k l = none := by
  cases h : tableFind k l with
  | none => rfl
  | some v => exact absurd (hl _ (mem_of_tableFind h)) (Nat.not_lt.mpr hk)

/-- In canonical form no word is listed at or past the length. -/
theorem segmentGet_of_len_le {g : Segment} (hg : g.wf) {off : Nat} (h : g.len ≤ off) :
    segmentGet g off = 0#32 := by
  rw [segmentGet, tableFind_of_keys_lt (fun e he => (hg.2 e he).1) h]; rfl

/-- A canonical segment is determined by its list of words. -/
theorem segment_ext {g h : Segment} (hg : g.wf) (hh : h.wf) (hwords : segmentWords g = segmentWords h) :
    g = h := by
  have hlen : g.len = h.len := by rw [← segmentWords_length g, hwords, segmentWords_length]
  have hget : ∀ off, segmentGet g off = segmentGet h off := fun off => by
    rcases Nat.lt_or_ge off g.len with hlt | hle
    · have hlt' : off < (segmentWords g).length := by rwa [segmentWords_length]
      rw [← segmentWords_getElem g off hlt', ← segmentWords_getElem h off (hwords ▸ hlt')]
      simp only [hwords]
    · rw [segmentGet_of_len_le hg hle, segmentGet_of_len_le hh (hlen ▸ hle)]
  have hcells : g.cells = h.cells :=
    table_ext hg.1 hh.1 fun off => by rw [tableFind_cells hg, tableFind_cells hh, hget]
  cases g; cases h
  exact congrArg₂ Segment.mk hlen hcells

/-- Settles O43: under every id the two segments have the same words, hence are equal, and an id of a
canonical memory is a word. -/
theorem canonicalMemoryIsDeterminedByItsSegments :
    Obligations.CanonicalMemoryIsDeterminedByItsSegments := by
  intro s t hs ht h
  have hword : ∀ id : Word, s.segment id = t.segment id := fun id => by
    have hid := h id
    cases hg : s.segment id with
    | none =>
      rw [segWords_eq_none.mpr hg] at hid
      exact (segWords_eq_none.mp hid.symm).symm
    | some g =>
      rw [segWords_of_segment hg] at hid
      obtain ⟨g', hg', hwords⟩ := segWords_eq_some.mp hid.symm
      rw [hg', segment_ext (segment_wf hs hg) (segment_wf ht hg') hwords.symm]
  refine table_ext hs.1 ht.1 fun k => ?_
  rcases Nat.lt_or_ge k Config.idLimit with hlt | hle
  · rw [← toNat_idOfNat hlt]
    exact hword (BitVec.ofNat 32 k)
  · rw [tableFind_of_keys_lt (fun e he => (hs.2 e he).1) hle,
      tableFind_of_keys_lt (fun e he => (ht.2 e he).1) hle]

end Sys2Proof.Machine

/-!
PROOFS of the statements about bad images and the end of a run (70_reset_and_hazards.md R182,
60_exceptions.md R155, R166).
-/

namespace Sys2Proof.Machine

/-! ## Which images are load-time errors -/

/-- R181: the words of an image take four bytes each. -/
theorem length_of_imageWords {image : List Byte} {ws : List Word} (h : imageWords image = some ws) :
    image.length = 4 * ws.length := by
  induction image using imageWords.induct generalizing ws with
  | case1 => cases h; rfl
  | case2 b0 b1 b2 b3 rest ih =>
    rw [imageWords_cons, Option.map_eq_some_iff] at h
    obtain ⟨ws', hws', rfl⟩ := h
    simp only [List.length_cons, ih hws']
    omega
  | case3 | case4 | case5 => cases h

/-- R182: the two load-time errors. -/
theorem launch_eq_none_iff (capacity : Option Nat) (image input : List Byte) :
    launch capacity image input = none ↔
      image.length % 4 ≠ 0 ∨ 2 ^ 32 - 1 < image.length / 4 := by
  unfold launch
  cases h : imageWords image with
  | none =>
    refine iff_of_true rfl (.inl fun hmod => ?_)
    have himage : image.length = 4 * (image.length / 4) := by omega
    obtain ⟨ws, hws, -⟩ := imageWords_of_length himage
    cases h.symm.trans hws
  | some ws =>
    have hlen := length_of_imageWords h
    have hlimit : Config.maxSegmentWords = 2 ^ 32 - 1 := rfl
    by_cases hle : ws.length ≤ Config.maxSegmentWords
    · simp only [hle, if_true, reduceCtorEq, false_iff]
      omega
    · simp only [hle, if_false, true_iff]
      omega

/-- Settles O50: the errors by `launch_eq_none_iff`; the empty image's segment 0 is empty, so that pc 0
is past its end. -/
theorem badImagesAreRejectedAtLoad : Obligations.BadImagesAreRejectedAtLoad := by
  refine fun capacity image input => ⟨launch_eq_none_iff capacity image input, ?_⟩
  rintro s rfl h
  obtain ⟨ws, hws, -, rfl⟩ := launch_some h
  cases hws
  obtain ⟨t, hstep, -, hfault, -⟩ :=
    (fetchChecksTheCurrentLength _ [] (segWords_launchWords_zero capacity [] input)).1 ⟨rfl, rfl⟩
      (Nat.zero_le _)
  exact ⟨t, hstep, hfault⟩

/-! ## The end of a run -/

/-- R155: the report of an ended run. -/
theorem report_of_ended {s : State} (hr : s.refused = none) (h : s.ended) :
    s.report = some ⟨runStateCode s.runState, (s.fault.map fun f => faultCode f.kind).getD 0#3,
      s.fault.map (·.pc), s.out⟩ := by
  rcases h with h | h <;> simp only [State.report, hr, h]

theorem report_of_running {s : State} (h : s.runState = .running) : s.report = none := by
  cases hr : s.refused <;> simp only [State.report, hr, h]

/-- Settles O52: by the state of the engine. -/
theorem reportGivesStatusFaultAndBytes : Obligations.ReportGivesStatusFaultAndBytes := by
  refine fun s hr => ⟨fun k p h hf => ?_, fun h hf => ?_, report_of_running, fun h => ?_,
    fun h => ⟨Config.faultExitStatusLessOne + 1, Nat.succ_ne_zero _, ?_⟩, rfl, rfl, rfl, rfl⟩
  · rw [report_of_ended hr (.inr h), h, hf]; rfl
  · rw [report_of_ended hr (.inl h), h, hf]; rfl
  · simp only [State.exitStatus, hr, h]
  · simp only [State.exitStatus, hr, h]

end Sys2Proof.Machine
